-- ==== Sys2Proof/Word.lean ====
section
/-! DEFINITION. The word types of the machine and their plainest arithmetic (spec 00_scope.md, R9). -/

namespace Sys2Proof

/-- A byte: a general register, a timer, a memory location (R22, R30, R34). -/
abbrev Byte := BitVec 8

/-- A 16-bit word: an instruction, the index register, the program counter, a stack entry (R26, R27, R31, R70). -/
abbrev Word := BitVec 16

/-- The index of a general register, V0 to VF (R22): in range by construction. -/
abbrev Reg := Fin 16

/-- The flag register VF is register 15 (R9 `FLAG_REG`, R24). -/
def vf : Reg := 15

/-- A key of the keypad, 0 to 15 (R9 `NUM_KEYS`, R32). -/
abbrev Key := Fin 16

end Sys2Proof
end

