-- ==== Sys2Proof/Syntax.lean ====
section
/-! DEFINITION. The instruction set: one constructor per row of the opcode table (R75, spec/opcode_table.json).
Register operands are indices in range by construction (R22); NNN and KK are bit fields (R72), which rules mask and AND;
N is a count, and WellFormed checks its range. -/

namespace Sys2Proof

/-- The 34 instructions of R75, in the table's order. -/
inductive Instr where
  /-- `CLS` (R174) -/
  | cls
  /-- `RET` (R122) -/
  | ret
  /-- `JP nnn` (R123) -/
  | jp (nnn : BitVec 12)
  /-- `CALL nnn` (R124) -/
  | call (nnn : BitVec 12)
  /-- `SE Vx,kk` (R125) -/
  | seImm (x : Reg) (kk : Byte)
  /-- `SNE Vx,kk` (R126) -/
  | sneImm (x : Reg) (kk : Byte)
  /-- `SE Vx,Vy` (R127) -/
  | seReg (x y : Reg)
  /-- `LD Vx,kk` (R140) -/
  | ldImm (x : Reg) (kk : Byte)
  /-- `ADD Vx,kk` (R141) -/
  | addImm (x : Reg) (kk : Byte)
  /-- `LD Vx,Vy` (R142) -/
  | ldReg (x y : Reg)
  /-- `OR Vx,Vy` (R143) -/
  | or (x y : Reg)
  /-- `AND Vx,Vy` (R144) -/
  | and (x y : Reg)
  /-- `XOR Vx,Vy` (R145) -/
  | xor (x y : Reg)
  /-- `ADD Vx,Vy` (R146) -/
  | addReg (x y : Reg)
  /-- `SUB Vx,Vy` (R147) -/
  | sub (x y : Reg)
  /-- `SHR Vx` (R148); the Y field is ignored (R78) and is no operand -/
  | shr (x : Reg)
  /-- `SUBN Vx,Vy` (R149) -/
  | subn (x y : Reg)
  /-- `SHL Vx` (R150); the Y field is ignored (R78) and is no operand -/
  | shl (x : Reg)
  /-- `SNE Vx,Vy` (R128) -/
  | sneReg (x y : Reg)
  /-- `LD I,nnn` (R160) -/
  | ldI (nnn : BitVec 12)
  /-- `JP V0,nnn` (R129) -/
  | jpV0 (nnn : BitVec 12)
  /-- `RND Vx,kk` (R151) -/
  | rnd (x : Reg) (kk : Byte)
  /-- `DRW Vx,Vy,n` (R175); `n` is the row count, 0 to 15 -/
  | drw (x y : Reg) (n : Nat)
  /-- `SKP Vx` (R185) -/
  | skp (x : Reg)
  /-- `SKNP Vx` (R186) -/
  | sknp (x : Reg)
  /-- `LD Vx,DT` (R180) -/
  | ldVxDT (x : Reg)
  /-- `LD Vx,K` (R187) -/
  | ldVxK (x : Reg)
  /-- `LD DT,Vx` (R181) -/
  | ldDT (x : Reg)
  /-- `LD ST,Vx` (R182) -/
  | ldST (x : Reg)
  /-- `ADD I,Vx` (R161) -/
  | addI (x : Reg)
  /-- `LD F,Vx` (R162) -/
  | ldF (x : Reg)
  /-- `LD B,Vx` (R163) -/
  | ldB (x : Reg)
  /-- `LD [I],Vx` (R164) -/
  | storeRegs (x : Reg)
  /-- `LD Vx,[I]` (R165) -/
  | loadRegs (x : Reg)
deriving DecidableEq, Repr

end Sys2Proof
end

