-- ==== Sys2Proof/Decode.lean ====
section
/-! DEFINITION. The decoder (R71, R72, R75 to R77), total on every word and on every list of bytes, the encoder (R81),
and the opcode table of R75 as data. The bit patterns are PRESUMED: the spec supplies them from general knowledge (D6, log 5). -/

namespace Sys2Proof

/-- Why bytes are no instruction. -/
inductive DecodeError where
  /-- fewer than two bytes: every instruction is one 16-bit word (R70) -/
  | truncated
  /-- the word matches no row of R75: a decode failure (R77, R103) -/
  | noPattern (w : Word)
deriving DecidableEq, Repr

/-- Two bytes as a word, the first the most significant (R54). -/
def bigEndian (hi lo : Byte) : Word := hi ++ lo

/-- The most significant byte of a word, which a big-endian store puts at the lower address (R54). -/
def highByte (w : Word) : Byte := w.extractLsb' 8 8

/-- The least significant byte of a word (R54). -/
def lowByte (w : Word) : Byte := w.extractLsb' 0 8

/-- Nibble `k` of a word, nibble 0 the least significant: `d4` is nibble 0 and `d1` is nibble 3 (R71). -/
def nibble (w : Word) (k : Nat) : BitVec 4 := w.extractLsb' (4 * k) 4

/-- A register index from a nibble (R72): always in range. -/
def regOf (d : BitVec 4) : Reg := ⟨d.toNat, d.isLt⟩

/-- The nibble of a register index. -/
def nibbleOf (r : Reg) : BitVec 4 := BitVec.ofNat 4 r.val

/-- Field `X` (R72). -/
def fieldX (w : Word) : Reg := regOf (nibble w 2)

/-- Field `Y` (R72). -/
def fieldY (w : Word) : Reg := regOf (nibble w 1)

/-- Field `N` (R72). -/
def fieldN (w : Word) : Nat := (nibble w 0).toNat

/-- Field `KK` (R72). -/
def fieldKK (w : Word) : Byte := w.extractLsb' 0 8

/-- Field `NNN` (R72). -/
def fieldNNN (w : Word) : BitVec 12 := w.extractLsb' 0 12

/-- Words whose first nibble is 0: CLS, RET, and nothing else (R75, R77). -/
def decode0 (w : Word) : Except DecodeError Instr :=
  match (fieldNNN w).toNat with
  | 0x0E0 => .ok .cls
  | 0x0EE => .ok .ret
  | _ => .error (.noPattern w)

/-- Words whose first nibble is 8: the register pair operations, chosen by the low nibble (R75, R77).
SHR and SHL ignore Y (R78, log 7). -/
def decode8 (w : Word) : Except DecodeError Instr :=
  match fieldN w with
  | 0x0 => .ok (.ldReg (fieldX w) (fieldY w))
  | 0x1 => .ok (.or (fieldX w) (fieldY w))
  | 0x2 => .ok (.and (fieldX w) (fieldY w))
  | 0x3 => .ok (.xor (fieldX w) (fieldY w))
  | 0x4 => .ok (.addReg (fieldX w) (fieldY w))
  | 0x5 => .ok (.sub (fieldX w) (fieldY w))
  | 0x6 => .ok (.shr (fieldX w))
  | 0x7 => .ok (.subn (fieldX w) (fieldY w))
  | 0xE => .ok (.shl (fieldX w))
  | _ => .error (.noPattern w)

/-- Words whose first nibble is E: the key skips, chosen by the low byte (R75, R77). -/
def decodeE (w : Word) : Except DecodeError Instr :=
  match (fieldKK w).toNat with
  | 0x9E => .ok (.skp (fieldX w))
  | 0xA1 => .ok (.sknp (fieldX w))
  | _ => .error (.noPattern w)

/-- Words whose first nibble is F: chosen by the low byte (R75, R77). -/
def decodeF (w : Word) : Except DecodeError Instr :=
  match (fieldKK w).toNat with
  | 0x07 => .ok (.ldVxDT (fieldX w))
  | 0x0A => .ok (.ldVxK (fieldX w))
  | 0x15 => .ok (.ldDT (fieldX w))
  | 0x18 => .ok (.ldST (fieldX w))
  | 0x1E => .ok (.addI (fieldX w))
  | 0x29 => .ok (.ldF (fieldX w))
  | 0x33 => .ok (.ldB (fieldX w))
  | 0x55 => .ok (.storeRegs (fieldX w))
  | 0x65 => .ok (.loadRegs (fieldX w))
  | _ => .error (.noPattern w)

/-- The decoder: dispatch on `d1` and selected low nibbles (R71, R76). A word matching no row is refused by name (R77).
The last arm is never reached: a nibble is at most 15. -/
def decode (w : Word) : Except DecodeError Instr :=
  match (nibble w 3).toNat with
  | 0x0 => decode0 w
  | 0x1 => .ok (.jp (fieldNNN w))
  | 0x2 => .ok (.call (fieldNNN w))
  | 0x3 => .ok (.seImm (fieldX w) (fieldKK w))
  | 0x4 => .ok (.sneImm (fieldX w) (fieldKK w))
  | 0x5 => if fieldN w = 0 then .ok (.seReg (fieldX w) (fieldY w)) else .error (.noPattern w)
  | 0x6 => .ok (.ldImm (fieldX w) (fieldKK w))
  | 0x7 => .ok (.addImm (fieldX w) (fieldKK w))
  | 0x8 => decode8 w
  | 0x9 => if fieldN w = 0 then .ok (.sneReg (fieldX w) (fieldY w)) else .error (.noPattern w)
  | 0xA => .ok (.ldI (fieldNNN w))
  | 0xB => .ok (.jpV0 (fieldNNN w))
  | 0xC => .ok (.rnd (fieldX w) (fieldKK w))
  | 0xD => .ok (.drw (fieldX w) (fieldY w) (fieldN w))
  | 0xE => decodeE w
  | 0xF => decodeF w
  | _ => .error (.noPattern w)

/-- Decode the first instruction of a list of bytes, and give back the rest of the list (R70, R54). -/
def decodeBytes : List Byte → Except DecodeError (Instr × List Byte)
  | hi :: lo :: rest =>
    match decode (bigEndian hi lo) with
    | .ok i => .ok (i, rest)
    | .error e => .error e
  | _ => .error .truncated

/-- Format A (R74): a fixed nibble and an address. -/
def wordA (d1 : BitVec 4) (nnn : BitVec 12) : Word := d1 ++ nnn

/-- Format XK (R74): a fixed nibble, a register and an immediate. -/
def wordXK (d1 : BitVec 4) (x : Reg) (kk : Byte) : Word := d1 ++ (nibbleOf x ++ kk : BitVec 12)

/-- Formats XY and XYN (R74): a fixed nibble, two registers and a low nibble, fixed or the count. -/
def wordXY (d1 : BitVec 4) (x y : Reg) (d4 : BitVec 4) : Word :=
  d1 ++ (nibbleOf x ++ (nibbleOf y ++ d4 : BitVec 8) : BitVec 12)

/-- The encoder, the inverse of R75 (R81). The ignored Y field of SHR and SHL is written as 0. -/
def encode : Instr → Word
  | .cls => 0x00E0
  | .ret => 0x00EE
  | .jp nnn => wordA 0x1 nnn
  | .call nnn => wordA 0x2 nnn
  | .seImm x kk => wordXK 0x3 x kk
  | .sneImm x kk => wordXK 0x4 x kk
  | .seReg x y => wordXY 0x5 x y 0x0
  | .ldImm x kk => wordXK 0x6 x kk
  | .addImm x kk => wordXK 0x7 x kk
  | .ldReg x y => wordXY 0x8 x y 0x0
  | .or x y => wordXY 0x8 x y 0x1
  | .and x y => wordXY 0x8 x y 0x2
  | .xor x y => wordXY 0x8 x y 0x3
  | .addReg x y => wordXY 0x8 x y 0x4
  | .sub x y => wordXY 0x8 x y 0x5
  | .shr x => wordXY 0x8 x 0 0x6
  | .subn x y => wordXY 0x8 x y 0x7
  | .shl x => wordXY 0x8 x 0 0xE
  | .sneReg x y => wordXY 0x9 x y 0x0
  | .ldI nnn => wordA 0xA nnn
  | .jpV0 nnn => wordA 0xB nnn
  | .rnd x kk => wordXK 0xC x kk
  | .drw x y n => wordXY 0xD x y (BitVec.ofNat 4 n)
  | .skp x => wordXK 0xE x 0x9E
  | .sknp x => wordXK 0xE x 0xA1
  | .ldVxDT x => wordXK 0xF x 0x07
  | .ldVxK x => wordXK 0xF x 0x0A
  | .ldDT x => wordXK 0xF x 0x15
  | .ldST x => wordXK 0xF x 0x18
  | .addI x => wordXK 0xF x 0x1E
  | .ldF x => wordXK 0xF x 0x29
  | .ldB x => wordXK 0xF x 0x33
  | .storeRegs x => wordXK 0xF x 0x55
  | .loadRegs x => wordXK 0xF x 0x65

/-- The bytes of an instruction as the hardware stores them, the first at the lower address (R54). -/
def encodeBytes (i : Instr) : List Byte := [highByte (encode i), lowByte (encode i)]

/-- A row of the opcode table of R75: word `w` selects the row iff `w &&& mask = bits`. -/
structure OpcodeRow where
  mnemonic : String
  bits : Word
  mask : Word
deriving DecidableEq, Repr

/-- Whether a word selects a row (R75). -/
def OpcodeRow.selects (r : OpcodeRow) (w : Word) : Bool := w &&& r.mask == r.bits

/-- The row of R75 that an instruction stands in, its `match` and `mask` columns copied as they are. -/
def Instr.row : Instr → OpcodeRow
  | .cls => ⟨"CLS", 0x00E0, 0xFFFF⟩
  | .ret => ⟨"RET", 0x00EE, 0xFFFF⟩
  | .jp _ => ⟨"JP_nnn", 0x1000, 0xF000⟩
  | .call _ => ⟨"CALL_nnn", 0x2000, 0xF000⟩
  | .seImm _ _ => ⟨"SE_Vx_kk", 0x3000, 0xF000⟩
  | .sneImm _ _ => ⟨"SNE_Vx_kk", 0x4000, 0xF000⟩
  | .seReg _ _ => ⟨"SE_Vx_Vy", 0x5000, 0xF00F⟩
  | .ldImm _ _ => ⟨"LD_Vx_kk", 0x6000, 0xF000⟩
  | .addImm _ _ => ⟨"ADD_Vx_kk", 0x7000, 0xF000⟩
  | .ldReg _ _ => ⟨"LD_Vx_Vy", 0x8000, 0xF00F⟩
  | .or _ _ => ⟨"OR_Vx_Vy", 0x8001, 0xF00F⟩
  | .and _ _ => ⟨"AND_Vx_Vy", 0x8002, 0xF00F⟩
  | .xor _ _ => ⟨"XOR_Vx_Vy", 0x8003, 0xF00F⟩
  | .addReg _ _ => ⟨"ADD_Vx_Vy", 0x8004, 0xF00F⟩
  | .sub _ _ => ⟨"SUB_Vx_Vy", 0x8005, 0xF00F⟩
  | .shr _ => ⟨"SHR_Vx", 0x8006, 0xF00F⟩
  | .subn _ _ => ⟨"SUBN_Vx_Vy", 0x8007, 0xF00F⟩
  | .shl _ => ⟨"SHL_Vx", 0x800E, 0xF00F⟩
  | .sneReg _ _ => ⟨"SNE_Vx_Vy", 0x9000, 0xF00F⟩
  | .ldI _ => ⟨"LD_I_nnn", 0xA000, 0xF000⟩
  | .jpV0 _ => ⟨"JP_V0_nnn", 0xB000, 0xF000⟩
  | .rnd _ _ => ⟨"RND_Vx_kk", 0xC000, 0xF000⟩
  | .drw _ _ _ => ⟨"DRW_Vx_Vy_n", 0xD000, 0xF000⟩
  | .skp _ => ⟨"SKP_Vx", 0xE09E, 0xF0FF⟩
  | .sknp _ => ⟨"SKNP_Vx", 0xE0A1, 0xF0FF⟩
  | .ldVxDT _ => ⟨"LD_Vx_DT", 0xF007, 0xF0FF⟩
  | .ldVxK _ => ⟨"LD_Vx_K", 0xF00A, 0xF0FF⟩
  | .ldDT _ => ⟨"LD_DT_Vx", 0xF015, 0xF0FF⟩
  | .ldST _ => ⟨"LD_ST_Vx", 0xF018, 0xF0FF⟩
  | .addI _ => ⟨"ADD_I_Vx", 0xF01E, 0xF0FF⟩
  | .ldF _ => ⟨"LD_F_Vx", 0xF029, 0xF0FF⟩
  | .ldB _ => ⟨"LD_B_Vx", 0xF033, 0xF0FF⟩
  | .storeRegs _ => ⟨"LD__I__Vx", 0xF055, 0xF0FF⟩
  | .loadRegs _ => ⟨"LD_Vx__I", 0xF065, 0xF0FF⟩

/-- One instruction of each row, in the order of R75. -/
def rowExamples : List Instr :=
  [.cls, .ret, .jp 0, .call 0, .seImm 0 0, .sneImm 0 0, .seReg 0 0, .ldImm 0 0, .addImm 0 0, .ldReg 0 0, .or 0 0] ++
  [.and 0 0, .xor 0 0, .addReg 0 0, .sub 0 0, .shr 0, .subn 0 0, .shl 0, .sneReg 0 0, .ldI 0, .jpV0 0, .rnd 0 0] ++
  [.drw 0 0 0, .skp 0, .sknp 0, .ldVxDT 0, .ldVxK 0, .ldDT 0, .ldST 0, .addI 0, .ldF 0, .ldB 0, .storeRegs 0] ++
  [.loadRegs 0]

/-- The opcode table of R75: 34 rows. -/
def opcodeTable : List OpcodeRow := rowExamples.map Instr.row

/-- The bytes of the instruction whose bits are `w` as spec/opcode_table.json numbers them: the low `nbits` bits of `w`,
in one word, stored most significant byte first (R54, R70). -/
def tableBytes (nbits w : Nat) : List Byte :=
  [highByte (BitVec.ofNat 16 (w % 2 ^ nbits)), lowByte (BitVec.ofNat 16 (w % 2 ^ nbits))]

/-- What the decoder reads from those bytes; none where it refuses. -/
def decodeTableWord (nbits w : Nat) : Option Instr :=
  match decodeBytes (tableBytes nbits w) with
  | .ok (i, _) => some i
  | .error _ => none

end Sys2Proof
end

