-- ==== Sys2Proof/Config.lean ====
section
/-! DEFINITION. What the hardware fixes (R9 to R13) and the free values of the spec, as constants with no body. -/

namespace Sys2Proof

/-- The two values the spec offers for `SUBN_DEST` (R11). -/
inductive SubnDest where
  | vx
  | vy
deriving DecidableEq, Repr

/-- The two values the spec offers for `VF_CLASH` (R12). -/
inductive VfClash where
  | textOrder
  | either
deriving DecidableEq, Repr

/-- `STACK_CAPACITY` (R10): the number of return addresses the call stack holds.
DESIGN CHOICE of the spec (D1, log 1): 12, a named parameter. -/
abbrev Config.stackCapacity : Nat := 12

/-- `SUBN_DEST` (R11): this hardware writes Vy (D13, log 12). -/
def Config.subnDest : SubnDest := .vy

/-- `VF_CLASH` (R12): this hardware writes in the order of the source's text (D12, log 11). -/
def Config.vfClash : VfClash := .textOrder

/-- `MEM_SIZE` (R9, R50): 4096 byte locations. -/
abbrev Config.memSize : Nat := 4096

/-- `ROM_BASE` and `PC_RESET` (R9, R40): 0x200. -/
abbrev Config.romBase : Nat := 0x200

/-- `FONT_BYTES` (R9, R58): the font fills 0x000 to 0x04F. -/
abbrev Config.fontBytes : Nat := 80

/-- `GLYPH_BYTES` (R9, R162): glyph v starts at v * 5. -/
abbrev Config.glyphBytes : Nat := 5

/-- `FB_W` (R9, R33). -/
abbrev Config.fbWidth : Nat := 64

/-- `FB_H` (R9, R33). -/
abbrev Config.fbHeight : Nat := 32

/-- `SPRITE_W` (R9, R170). -/
abbrev Config.spriteWidth : Nat := 8

/-- The bytes of `FONT` (R231 clause 1), which the spec leaves a parameter (D22).
PRESUMED the standard CHIP-8 font, which the spec lists for reference only (93_implementation_defined.md G3, log 15).
No statement rests on these bytes. -/
def Config.font : List Byte :=
  [0xF0, 0x90, 0x90, 0x90, 0xF0] ++ [0x20, 0x60, 0x20, 0x20, 0x70] ++
  [0xF0, 0x10, 0xF0, 0x80, 0xF0] ++ [0xF0, 0x10, 0xF0, 0x10, 0xF0] ++
  [0x90, 0x90, 0xF0, 0x10, 0x10] ++ [0xF0, 0x80, 0xF0, 0x10, 0xF0] ++
  [0xF0, 0x80, 0xF0, 0x90, 0xF0] ++ [0xF0, 0x10, 0x20, 0x40, 0x40] ++
  [0xF0, 0x90, 0xF0, 0x90, 0xF0] ++ [0xF0, 0x90, 0xF0, 0x10, 0xF0] ++
  [0xF0, 0x90, 0xF0, 0x90, 0x90] ++ [0xE0, 0x90, 0xE0, 0x90, 0xE0] ++
  [0xF0, 0x80, 0x80, 0x80, 0xF0] ++ [0xE0, 0x90, 0x90, 0x90, 0xE0] ++
  [0xF0, 0x80, 0xF0, 0x80, 0xF0] ++ [0xF0, 0x80, 0xF0, 0x80, 0x80]

/-- Free value: whether the host's call `n` is a timer advance and not a tick, where no call is queued (R107, D19).
No law relates two calls: the interleaving is any, endless timer advances and none at all included. -/
opaque Config.freeTimerAdvance : Nat → Bool

/-- Free value: the key-down flags of the keypad at call `n`, where the host's call does not carry them (R32, R104, D10).
No law relates two calls, or a flag to the last-pressed key. -/
opaque Config.freeKeyDown : Nat → Key → Bool

/-- Free value: the last-pressed key at call `n`, where the host's call does not carry it (R32, R104, D10). -/
opaque Config.freeKeyLast : Nat → Option Key

/-- Free value: the random byte at call `n`, where the host's call does not carry it (R104, D11). -/
opaque Config.freeRandom : Nat → Byte

/-- Free value: which of the two values VF holds after a clash, were `VF_CLASH` `either` (R12, R152). -/
opaque Config.freeClash : Nat → Bool

end Sys2Proof
end

