-- ==== Sys2Proof/Machine/State.lean ====
section
/-! DEFINITION. The state of the machine as plain data: everything R20 and R44 list, and the host's inputs (R104, R107). -/

namespace Sys2Proof.Machine

/-- Memory (R34): the bytes that differ from what an unlisted address reads as, at strictly rising addresses. -/
abbrev Memory := List Host.Cell

/-- The framebuffer (R33): 32 rows of 64 one-bit pixels, row 0 at the top, column 0 at the left. -/
abbrev Framebuffer := Vector (Vector Bool Config.fbWidth) Config.fbHeight

/-- The four fault causes (R200). -/
inductive FaultCause where
  | decodeFault
  | stackOverflow
  | stackUnderflow
  | keyIndexFault
deriving DecidableEq, Repr

/-- The fault record (R35, R201): the cause, the word fetched, and the address it was fetched from. -/
structure FaultRecord where
  cause : FaultCause
  opcode : Word
  addr : Word
deriving DecidableEq, Repr

/-- The keypad input `K` of a tick (R32): 16 key-down flags and the optional last-pressed key, with no law between them. -/
structure Keypad where
  down : Vector Bool 16
  last : Option Key
deriving DecidableEq, Repr

/-- A call of the host (R100, R213): an instruction tick with its two inputs (R104), or a timer advance. -/
inductive HostCall where
  | tick (k : Keypad) (rnd : Byte)
  | timerAdvance
deriving DecidableEq, Repr

/-- An event of the output trace (R36, R184). -/
inductive OutputEvent where
  | beep
deriving DecidableEq, Repr

/-- The model's own fields: the host's inputs as plain data. They are no state of the spec's machine (R32, R104, R107).
A statement about them holds for every value of them, and none rests on their reset values (log 23). -/
structure HostInputs where
  /-- the host's queued calls, oldest first; after the last of them the calls are free values (R107, log 18) -/
  calls : List HostCall
  /-- the keypad of the tick in progress (R104) -/
  keypad : Keypad
  /-- the random byte of the tick in progress (R104) -/
  rnd : Byte
  /-- the index of the host's next call, which the opaque free values of Config are applied to -/
  draws : Nat
deriving DecidableEq, Repr

/-- The whole state (R20, R44). -/
structure State where
  /-- `V[0..15]` (R22) -/
  v : Vector Byte 16
  /-- `I` (R26) -/
  i : Word
  /-- `pc` (R27) -/
  pc : Word
  /-- `DT` (R30) -/
  dt : Byte
  /-- `ST` (R30) -/
  st : Byte
  /-- `S[0..STACK_CAPACITY-1]` (R31) -/
  stack : Vector Word Config.stackCapacity
  /-- `SP`, the number of entries in use, 0..STACK_CAPACITY (R31) -/
  sp : Fin (Config.stackCapacity + 1)
  /-- `FB` (R33) -/
  fb : Framebuffer
  /-- `M[0..4095]` (R34) -/
  mem : Memory
  /-- the fault record (R35) -/
  fault : Option FaultRecord
  /-- the output trace, the newest event last (R36) -/
  trace : List OutputEvent
  /-- the host's inputs (the model's own fields) -/
  host : HostInputs
deriving DecidableEq, Repr

/-- Why a step has no next state. -/
inductive Fault where
  /-- Raised by `step` alone, when the fault record is set: a faulted core takes no further step (R202, log 13).
  Safe: the spec gives neither entry point a step there. -/
  | coreFaulted (r : FaultRecord)
deriving DecidableEq, Repr

/-- Why the model gives an instruction no meaning. -/
inductive Refusal where
  /-- Raised by `exec` for an instruction with no meaning yet; no arm raises it in this model.
  Safe: nothing is claimed of the instruction. -/
  | notModelled (mnemonic : String)
deriving DecidableEq, Repr

/-- No key down and none marked (the model's reset value of its own input field, log 23). -/
def Keypad.idle : Keypad := ⟨Vector.replicate 16 false, none⟩

/-- The host's inputs at reset: no call queued, so that every call is a free value (DESIGN CHOICE, log 23). -/
def HostInputs.reset : HostInputs := ⟨[], Keypad.idle, 0, 0⟩

/-- The machine at reset (R40 to R44, R230): pc 0x200, every register, timer and stack entry 0, every pixel 0 (R41),
no fault and an empty trace (R42), and memory with nothing listed, which reads as the launch memory (R43, log 15). -/
def State.reset : State where
  v := Vector.replicate 16 0
  i := 0
  pc := 0x200
  dt := 0
  st := 0
  stack := Vector.replicate Config.stackCapacity 0
  sp := 0
  fb := Vector.replicate Config.fbHeight (Vector.replicate Config.fbWidth false)
  mem := []
  fault := none
  trace := []
  host := HostInputs.reset

end Sys2Proof.Machine
end

