-- ==== Sys2Proof/Machine/Operands.lean ====
section
/-! DEFINITION. The operand forms: general registers (R22, R23), zero-extended immediates and addresses (R73),
and the key operand of SKP and SKNP (R188). -/

namespace Sys2Proof.Machine

/-- `V[r]` (R22, R23). -/
def State.reg (s : State) (r : Reg) : Byte := s.v.get r

/-- `V[r] <- b` (R22, R23). No register is hardwired. -/
def State.setReg (s : State) (r : Reg) (b : Byte) : State := { s with v := s.v.set r.val b r.isLt }

/-- `zext_16(NNN)` (R73). -/
def zextAddr (nnn : BitVec 12) : Word := nnn.zeroExtend 16

/-- `zext_16` of a byte (R73). -/
def zextByte (b : Byte) : Word := b.zeroExtend 16

/-- `NNN[7:0]`, the part of the address that `JP V0,nnn` uses (R129). -/
def addrLowByte (nnn : BitVec 12) : Byte := nnn.extractLsb' 0 8

/-- The key operand (R188): the value of the register names a key, and a value above 15 names none. -/
def keyIndex (b : Byte) : Except FaultCause Key :=
  if h : b.toNat < 16 then .ok ⟨b.toNat, h⟩ else .error .keyIndexFault

/-- `K.down[k]` (R32, R104): the key-down flag in the tick's keypad input. -/
def State.keyDown (s : State) (k : Key) : Bool := s.host.keypad.down.get k

end Sys2Proof.Machine
end

