-- ==== Sys2Proof/Machine/Flags.lean ====
section
/-! DEFINITION. Every flag computation (R24, R153) and the two orders in which a flag and a result are written (R152). -/

namespace Sys2Proof.Machine

/-- The carry of `ADD Vx,Vy`: 1 iff the exact sum exceeds 255 (R146). -/
def carryFlag (a b : Byte) : Byte := if a.toNat + b.toNat > 255 then 1 else 0

/-- The no-borrow flag of `a - b`: 1 iff `a >= b` (R147, R149, R153). -/
def noBorrowFlag (a b : Byte) : Byte := if a.toNat ≥ b.toNat then 1 else 0

/-- The bit `SHR` shifts out, 0 or 1 (R148). -/
def shiftRightFlag (a : Byte) : Byte := a &&& 0x01

/-- The bit `SHL` shifts out, as the raw masked value 0x00 or 0x80 (R150). -/
def shiftLeftFlag (a : Byte) : Byte := a &&& 0x80

/-- The collision flag of `DRW`: 1 or 0 (R175). -/
def collisionFlag (coll : Bool) : Byte := if coll then 1 else 0

/-- Write a result, then the flag, as the source's text orders them for ADD, SUB and SUBN (R152).
With `VF_CLASH = either` a clash leaves either value, as a draw. -/
def resultThenFlag (mode : VfClash) (dst : Reg) (result flag : Byte) (s : State) : State :=
  match mode with
  | .textOrder => (s.setReg dst result).setReg vf flag
  | .either =>
    if dst = vf then s.setReg vf (if Config.freeClash s.host.draws then result else flag)
    else (s.setReg dst result).setReg vf flag

/-- Write the flag, then shift the register in place, as the source's text orders them for SHR and SHL (R148, R150, R152).
The shift reads its register after the flag is written, so a clash shifts the flag itself. -/
def flagThenShift (mode : VfClash) (x : Reg) (flag : Byte) (shift : Byte → Byte) (s : State) : State :=
  match mode with
  | .textOrder => (s.setReg vf flag).setReg x (shift ((s.setReg vf flag).reg x))
  | .either =>
    if x = vf then s.setReg vf (if Config.freeClash s.host.draws then flag else shift flag)
    else (s.setReg vf flag).setReg x (shift (s.reg x))

end Sys2Proof.Machine
end

