-- ==== Sys2Proof/Machine/Ops.lean ====
section
/-! DEFINITION. The named operations over memory, program counter, call stack, framebuffer and host inputs,
and raising a fault, the one exception this hardware has (R105, R201, R205). -/

namespace Sys2Proof.Machine

/-- What every meaning answers. -/
abbrev Result := Host.Outcome State Fault Refusal

/-! ## Memory -/

/-- What an address not listed in memory reads as: the launch memory (R43, R58).
The font fills 0x000 to 0x04F and 0x050 to 0x1FF is zero (R231).
The font's bytes are PRESUMED, and zero from 0x200 on is a DESIGN CHOICE (log 15). -/
def unlistedByte (a : Nat) : Byte := Config.font.getD a 0

/-- The byte a memory holds at an address. -/
def Memory.lookup : Memory → Nat → Byte
  | [], a => unlistedByte a
  | (b, u) :: rest, a => if a = b then u else Memory.lookup rest a

/-- Put a cell before the first cell of a higher address. -/
def Memory.insertCell (a : Nat) (u : Byte) : Memory → Memory
  | [] => [(a, u)]
  | c :: rest => if a < c.1 then (a, u) :: c :: rest else c :: Memory.insertCell a u rest

/-- Memory without its cell at an address. -/
def Memory.remove (a : Nat) (m : Memory) : Memory := m.filter fun c => c.1 != a

/-- Make an address hold a byte. Writing what the address reads as unlisted leaves it unlisted, so equal memories are
equal lists. -/
def Memory.store (m : Memory) (a : Nat) (u : Byte) : Memory :=
  if u = unlistedByte a then m.remove a else (m.remove a).insertCell a u

/-- The canonical form: addresses inside the space (R50), strictly rising, and no cell equal to what its address reads as
unlisted. -/
def Memory.wf (m : Memory) : Bool :=
  m.all (fun c => decide (c.1 < Config.memSize) && c.2 != unlistedByte c.1) &&
    decide (m.Pairwise fun c d => c.1 < d.1)

/-- The address of byte `k` of a transfer based at `base`: `(base + k) mod 4096`, per byte (R52). -/
def memAddr (base : Word) (k : Nat) : Nat := (base.toNat + k) % Config.memSize

/-- `MemRead(a, 1)` = `M[a mod 4096]` (R51, R52). It never faults (R53). -/
def State.memRead (s : State) (a : Nat) : Byte := s.mem.lookup (a % Config.memSize)

/-- `MemWrite(a, 1, u)` : `M[a mod 4096] <- u` (R51, R52). It never faults (R53). -/
def State.memWrite (s : State) (a : Nat) (u : Byte) : State := { s with mem := s.mem.store (a % Config.memSize) u }

/-- Store bytes `k`, `k + 1`, ... of a transfer based at `base`, in that order, each address reduced by itself (R52). -/
def State.storeBytes (s : State) (base : Word) (k : Nat) : List Byte → State
  | [] => s
  | u :: us => (s.memWrite (memAddr base k) u).storeBytes base (k + 1) us

/-! ## The program counter and the fetch -/

/-- The word at an address: two bytes, big-endian, each address reduced by itself (R52, R54). -/
def State.wordAt (s : State) (a : Word) : Word := bigEndian (s.memRead (memAddr a 0)) (s.memRead (memAddr a 1))

/-- The word a tick fetches (R101). -/
def State.fetchWord (s : State) : Word := s.wordAt s.pc

/-- The fetch's advance of `pc` by 2, before the instruction executes (R102), modulo 65536 (R27). -/
def State.advancePc (s : State) : State := { s with pc := s.pc + 2 }

/-- `pc <- target` (R28). -/
def State.jump (s : State) (target : Word) : State := { s with pc := target }

/-- Skip the next word when the condition holds: `pc <- (pc + 2) mod 65536` on the advanced pc (R108). -/
def State.skipIf (s : State) (c : Bool) : State := { s with pc := if c then s.pc + 2 else s.pc }

/-! ## Faults -/

/-- The cause codes of R200, the spec's own numbering (D21, log 20). -/
def FaultCause.code : FaultCause → Nat
  | .decodeFault => 1
  | .stackOverflow => 2
  | .stackUnderflow => 3
  | .keyIndexFault => 4

/-- `raise F(info)` (R105, R201): end the tick with the fault recorded and everything else as before the tick.
`s` is the state an instruction executes in, its pc already advanced (R102): the fetch address is pc - 2, and the word is
read there again, since nothing has been written since the fetch (log 25). There is no handler, no vector and no saved
register (R205). -/
def raiseFault (c : FaultCause) (s : State) : Result :=
  .next { s with pc := s.pc - 2, fault := some ⟨c, s.wordAt (s.pc - 2), s.pc - 2⟩ }

/-! ## The call stack -/

/-- `push(addr)` (R120): `S[SP] <- addr; SP <- SP + 1`, or a stack overflow when SP is STACK_CAPACITY. -/
def push (a : Word) (s : State) : Except FaultCause State :=
  if h : s.sp.val < Config.stackCapacity then
    .ok { s with stack := s.stack.set s.sp.val a h, sp := ⟨s.sp.val + 1, Nat.succ_lt_succ h⟩ }
  else .error .stackOverflow

/-- `pop()` (R121): `SP <- SP - 1` and the entry there, which is not cleared, or a stack underflow when SP is 0. -/
def pop (s : State) : Except FaultCause (Word × State) :=
  if h : 0 < s.sp.val then
    have hk : s.sp.val - 1 < Config.stackCapacity :=
      Nat.lt_of_lt_of_le (Nat.sub_lt h Nat.one_pos) (Nat.le_of_lt_succ s.sp.isLt)
    .ok (s.stack.get ⟨s.sp.val - 1, hk⟩, { s with sp := ⟨s.sp.val - 1, Nat.lt_succ_of_lt hk⟩ })
  else .error .stackUnderflow

/-! ## The framebuffer -/

/-- The pixel of row `py` and column `px`, each coordinate taken modulo the height or the width (R33). -/
def Framebuffer.pixel (fb : Framebuffer) (py px : Nat) : Bool :=
  (fb.get ⟨py % Config.fbHeight, Nat.mod_lt py (Nat.succ_pos _)⟩).get
    ⟨px % Config.fbWidth, Nat.mod_lt px (Nat.succ_pos _)⟩

/-- `FB[py][px] <- b`, each coordinate taken modulo the height or the width (R33). -/
def Framebuffer.setPixel (fb : Framebuffer) (py px : Nat) (b : Bool) : Framebuffer :=
  fb.set (py % Config.fbHeight)
    ((fb.get ⟨py % Config.fbHeight, Nat.mod_lt py (Nat.succ_pos _)⟩).set
      (px % Config.fbWidth) b (Nat.mod_lt px (Nat.succ_pos _)))
    (Nat.mod_lt py (Nat.succ_pos _))

/-- `clear()` (R172): every pixel 0. -/
def Framebuffer.clear : Framebuffer :=
  Vector.replicate Config.fbHeight (Vector.replicate Config.fbWidth false)

/-- Bit `c` of a sprite row, column 0 the most significant bit: `(row >> (7 - c)) & 1` (R170). -/
def rowBit (row : Byte) (c : Nat) : Bool := row.getLsbD (7 - c)

/-- One pixel of a blit (R170, R171): collide if the bit and the pixel are both 1, then XOR the bit into the pixel. -/
def blitPixel (py px : Nat) (bit : Bool) (acc : Framebuffer × Bool) : Framebuffer × Bool :=
  (acc.1.setPixel py px (acc.1.pixel py px ^^ bit), acc.2 || (bit && acc.1.pixel py px))

/-- The columns `c`, `c + 1`, ... of one sprite row, `fuel` of them (R170). -/
def blitColumns (x py : Nat) (row : Byte) : Nat → Nat → Framebuffer × Bool → Framebuffer × Bool
  | 0, _, acc => acc
  | fuel + 1, c, acc => blitColumns x py row fuel (c + 1) (blitPixel py (x + c) (rowBit row c) acc)

/-- The rows of a sprite, the first at row `y` (R170). -/
def blitRows (x : Nat) : Nat → List Byte → Framebuffer × Bool → Framebuffer × Bool
  | _, [], acc => acc
  | y, row :: rows, acc => blitRows x (y + 1) rows (blitColumns x y row Config.spriteWidth 0 acc)

/-- `draw(x, y, rows)` (R170, R171): the framebuffer after the blit, and whether a collision occurred. -/
def Framebuffer.draw (fb : Framebuffer) (x y : Nat) (rows : List Byte) : Framebuffer × Bool :=
  blitRows x y rows (fb, false)

/-- `snapshot()` (R173): the host's copy of the framebuffer. It changes no state (log 28). -/
def snapshot (s : State) : Framebuffer := s.fb

/-! ## The timers -/

/-- `TimerAdvance()` (R183, R184): each timer above 0 goes down by 1, and a sound timer that was 1 beeps. -/
def timerAdvance (s : State) : State :=
  { s with
    dt := if s.dt = 0 then 0 else s.dt - 1
    st := if s.st = 0 then 0 else s.st - 1
    trace := if s.st = 1 then s.trace ++ [.beep] else s.trace }

/-! ## The host's calls -/

/-- The keypad of call `n`, where the host's call does not carry it: a free value (D10). -/
def freeKeypad (n : Nat) : Keypad := ⟨Vector.ofFn (Config.freeKeyDown n), Config.freeKeyLast n⟩

/-- A tick as call `n`, its two inputs free values (R104). -/
def freeTick (n : Nat) : HostCall := .tick (freeKeypad n) (Config.freeRandom n)

/-- Call `n` of the host where none is queued: a timer advance or a tick, freely (R107, log 18). -/
def freeCall (n : Nat) : HostCall := if Config.freeTimerAdvance n = true then .timerAdvance else freeTick n

/-- The host's next call: the oldest queued, or a free one (R107, log 18). -/
def nextCall (s : State) : HostCall := s.host.calls.headD (freeCall s.host.draws)

/-- Take the host's next call: off the queue, and the call's index moves on. -/
def dropCall (s : State) : State :=
  { s with host := { s.host with calls := s.host.calls.tail, draws := s.host.draws + 1 } }

/-- Bring in a tick's inputs (R104). -/
def bringInputs (k : Keypad) (rnd : Byte) (s : State) : State :=
  { s with host := { s.host with keypad := k, rnd := rnd } }

end Sys2Proof.Machine
end

