-- ==== Sys2Proof/Machine/Alu.lean ====
section
/-! DEFINITION. Register arithmetic and logic (spec 42_alu.md). All arithmetic is unsigned 8-bit with wrap-around (R153). -/

namespace Sys2Proof.Machine

/-- `LD Vx,kk` (R140): `V[X] <- KK`. -/
def execLdImm (x : Reg) (kk : Byte) (s : State) : Result := .next (s.setReg x kk)

/-- `ADD Vx,kk` (R141): `V[X] <- (V[X] + KK) mod 256`, no flag. -/
def execAddImm (x : Reg) (kk : Byte) (s : State) : Result := .next (s.setReg x (s.reg x + kk))

/-- `LD Vx,Vy` (R142): `V[X] <- V[Y]`. -/
def execLdReg (x y : Reg) (s : State) : Result := .next (s.setReg x (s.reg y))

/-- `OR Vx,Vy` (R143), no flag. -/
def execOr (x y : Reg) (s : State) : Result := .next (s.setReg x (s.reg x ||| s.reg y))

/-- `AND Vx,Vy` (R144), no flag. -/
def execAnd (x y : Reg) (s : State) : Result := .next (s.setReg x (s.reg x &&& s.reg y))

/-- `XOR Vx,Vy` (R145), no flag. -/
def execXor (x y : Reg) (s : State) : Result := .next (s.setReg x (s.reg x ^^^ s.reg y))

/-- `ADD Vx,Vy` (R146, R152): the sum, then the carry into VF. -/
def execAddReg (x y : Reg) (s : State) : Result :=
  .next (resultThenFlag Config.vfClash x (s.reg x + s.reg y) (carryFlag (s.reg x) (s.reg y)) s)

/-- `SUB Vx,Vy` (R147, R152): `Vx - Vy`, then the no-borrow flag into VF. -/
def execSub (x y : Reg) (s : State) : Result :=
  .next (resultThenFlag Config.vfClash x (s.reg x - s.reg y) (noBorrowFlag (s.reg x) (s.reg y)) s)

/-- `SHR Vx` (R148, R152): bit 0 into VF, then shift right by one. -/
def execShr (x : Reg) (s : State) : Result :=
  .next (flagThenShift Config.vfClash x (shiftRightFlag (s.reg x)) (fun b => b >>> 1) s)

/-- The register `SUBN` writes, by `SUBN_DEST` (R11, R149). -/
def subnTarget (d : SubnDest) (x y : Reg) : Reg :=
  match d with
  | .vy => y
  | .vx => x

/-- `SUBN Vx,Vy` (R149, R152): `Vy - Vx` into the `SUBN_DEST` register, then the no-borrow flag into VF. -/
def execSubn (x y : Reg) (s : State) : Result :=
  .next (resultThenFlag Config.vfClash (subnTarget Config.subnDest x y) (s.reg y - s.reg x)
    (noBorrowFlag (s.reg y) (s.reg x)) s)

/-- `SHL Vx` (R150, R152): bit 7 as the raw masked value into VF, then shift left by one. -/
def execShl (x : Reg) (s : State) : Result :=
  .next (flagThenShift Config.vfClash x (shiftLeftFlag (s.reg x)) (fun b => b <<< 1) s)

/-- `RND Vx,kk` (R151): the tick's random byte masked by KK. -/
def execRnd (x : Reg) (kk : Byte) (s : State) : Result := .next (s.setReg x (s.host.rnd &&& kk))

end Sys2Proof.Machine
end

