-- ==== Sys2Proof/Machine/Control.lean ====
section
/-! DEFINITION. Control flow and the call stack (spec 41_control_flow.md). Each meaning runs with pc already advanced (R102). -/

namespace Sys2Proof.Machine

/-- `RET` (R122): `pc <- pop()`. -/
def execRet (s : State) : Result :=
  match pop s with
  | .ok (a, t) => .next (t.jump a)
  | .error c => raiseFault c s

/-- `JP nnn` (R123): `pc <- zext_16(NNN)`. -/
def execJp (nnn : BitVec 12) (s : State) : Result := .next (s.jump (zextAddr nnn))

/-- `CALL nnn` (R124): `push(pc); pc <- zext_16(NNN)`, where pc is the address after the CALL. -/
def execCall (nnn : BitVec 12) (s : State) : Result :=
  match push s.pc s with
  | .ok t => .next (t.jump (zextAddr nnn))
  | .error c => raiseFault c s

/-- `SE Vx,kk` (R125): skip if `V[X] == KK`. -/
def execSeImm (x : Reg) (kk : Byte) (s : State) : Result := .next (s.skipIf (s.reg x == kk))

/-- `SNE Vx,kk` (R126): skip if `V[X] != KK`. -/
def execSneImm (x : Reg) (kk : Byte) (s : State) : Result := .next (s.skipIf (s.reg x != kk))

/-- `SE Vx,Vy` (R127): skip if `V[X] == V[Y]`. -/
def execSeReg (x y : Reg) (s : State) : Result := .next (s.skipIf (s.reg x == s.reg y))

/-- `SNE Vx,Vy` (R128): skip if `V[X] != V[Y]`. -/
def execSneReg (x y : Reg) (s : State) : Result := .next (s.skipIf (s.reg x != s.reg y))

/-- `JP V0,nnn` (R129): `pc <- zext_16((V[0] + NNN[7:0]) mod 256)`; the high nibble of NNN has no effect. -/
def execJpV0 (nnn : BitVec 12) (s : State) : Result := .next (s.jump (zextByte (s.reg 0 + addrLowByte nnn)))

end Sys2Proof.Machine
end

