-- ==== Sys2Proof/Machine/Display.lean ====
section
/-! DEFINITION. The display instructions (spec 44_display.md). -/

namespace Sys2Proof.Machine

/-- `CLS` (R174): `clear()`. VF is unchanged. -/
def execCls (s : State) : Result := .next { s with fb := Framebuffer.clear }

/-- The `n` sprite rows at I, byte `r` from `I + r` (R175). -/
def State.spriteRows (s : State) (n : Nat) : List Byte := (List.range n).map fun r => s.memRead (memAddr s.i r)

/-- `DRW Vx,Vy,n` (R175): blit the n rows at I to (Vx, Vy), then the collision flag into VF. The coordinates and the rows
are read before anything is written. -/
def execDrw (x y : Reg) (n : Nat) (s : State) : Result :=
  .next
    (State.setReg { s with fb := (s.fb.draw (s.reg x).toNat (s.reg y).toNat (s.spriteRows n)).1 } vf
      (collisionFlag (s.fb.draw (s.reg x).toNat (s.reg y).toNat (s.spriteRows n)).2))

end Sys2Proof.Machine
end

