-- ==== Sys2Proof/Machine/Index.lean ====
section
/-! DEFINITION. The index register and the memory transfers (spec 43_index_memory.md). No flag, no fault. -/

namespace Sys2Proof.Machine

/-- `LD I,nnn` (R160): `I <- zext_16(NNN)`. -/
def execLdI (nnn : BitVec 12) (s : State) : Result := .next { s with i := zextAddr nnn }

/-- `ADD I,Vx` (R161): `I <- (I + V[X]) mod 65536`; VF is not a flag here. -/
def execAddI (x : Reg) (s : State) : Result := .next { s with i := s.i + zextByte (s.reg x) }

/-- `LD F,Vx` (R162): `I <- V[X] * 5`, V[X] not masked. -/
def execLdF (x : Reg) (s : State) : Result :=
  .next { s with i := BitVec.ofNat 16 ((s.reg x).toNat * Config.glyphBytes) }

/-- The three decimal digits of a byte: hundreds, tens, ones (R163). -/
def bcdDigits (b : Byte) : List Byte :=
  [BitVec.ofNat 8 (b.toNat / 100), BitVec.ofNat 8 (b.toNat / 10 % 10), BitVec.ofNat 8 (b.toNat % 10)]

/-- `LD B,Vx` (R163): the decimal digits of V[X] to `I`, `I + 1`, `I + 2`. I is unchanged. -/
def execLdB (x : Reg) (s : State) : Result := .next (s.storeBytes s.i 0 (bcdDigits (s.reg x)))

/-- The register of index `k`, for the loops over `0..X` of R164 and R165. -/
def regIndex (k : Nat) : Reg := Fin.ofNat 16 k

/-- `LD [I],Vx` (R164): V0 to Vx to memory at I. I is unchanged (D20, log 19). -/
def execStoreRegs (x : Reg) (s : State) : Result :=
  .next (s.storeBytes s.i 0 ((List.range (x.val + 1)).map fun k => s.reg (regIndex k)))

/-- Load registers `k`, `k + 1`, ..., `fuel` of them, register `k` from `I + k` (R165). -/
def loadLoop : Nat → Nat → State → State
  | 0, _, s => s
  | fuel + 1, k, s => loadLoop fuel (k + 1) (s.setReg (regIndex k) (s.memRead (memAddr s.i k)))

/-- `LD Vx,[I]` (R165): V0 to Vx from memory at I. I is unchanged (D20, log 19). -/
def execLoadRegs (x : Reg) (s : State) : Result := .next (loadLoop (x.val + 1) 0 s)

end Sys2Proof.Machine
end

