-- ==== Sys2Proof/Machine/TimersKeys.lean ====
section
/-! DEFINITION. The timer and keypad instructions (spec 45_timers_keys.md). -/

namespace Sys2Proof.Machine

/-- `LD Vx,DT` (R180): `V[X] <- DT`. -/
def execLdVxDT (x : Reg) (s : State) : Result := .next (s.setReg x s.dt)

/-- `LD DT,Vx` (R181): `DT <- V[X]`. -/
def execLdDT (x : Reg) (s : State) : Result := .next { s with dt := s.reg x }

/-- `LD ST,Vx` (R182): `ST <- V[X]`. The write emits no beep. -/
def execLdST (x : Reg) (s : State) : Result := .next { s with st := s.reg x }

/-- `SKP Vx` (R185, R188): skip if the key numbered V[X] is down. -/
def execSkp (x : Reg) (s : State) : Result :=
  match keyIndex (s.reg x) with
  | .ok k => .next (s.skipIf (s.keyDown k))
  | .error c => raiseFault c s

/-- `SKNP Vx` (R186, R188): skip if the key numbered V[X] is not down. -/
def execSknp (x : Reg) (s : State) : Result :=
  match keyIndex (s.reg x) with
  | .ok k => .next (s.skipIf (!s.keyDown k))
  | .error c => raiseFault c s

/-- One poll of the key wait (R187): the last-pressed key into V[X], or pc back to the instruction's own address. -/
def pollKey (x : Reg) (s : State) : State :=
  { s with
    v := match s.host.keypad.last with
      | some k => (s.setReg x (BitVec.ofNat 8 k.val)).v
      | none => s.v
    pc := match s.host.keypad.last with
      | some _ => s.pc
      | none => s.pc - 2 }

/-- `LD Vx,K` (R187): poll the keypad's last-pressed key. It never blocks (R212). -/
def execLdVxK (x : Reg) (s : State) : Result := .next (pollKey x s)

end Sys2Proof.Machine
end

