-- ==== Sys2Proof/Machine/Tick.lean ====
section
/-! DEFINITION. The instruction tick (R101) and the host's two entry points (R100). -/

namespace Sys2Proof.Machine

/-- Decode the fetched word and execute it, or raise a decode fault (R101, R103). `s` has pc already advanced. -/
def runWord (w : Word) (s : State) : Result :=
  match decode w with
  | .ok i => exec i s
  | .error _ => raiseFault .decodeFault s

/-- `Tick(K, rnd)` (R101): fetch at pc, advance pc by 2, decode, execute. -/
def tick (k : Keypad) (rnd : Byte) (s : State) : Result :=
  runWord s.fetchWord (bringInputs k rnd s).advancePc

/-- Perform one call of the host (R100). -/
def perform (c : HostCall) (s : State) : Result :=
  match c with
  | .tick k rnd => tick k rnd s
  | .timerAdvance => .next (timerAdvance s)

/-- One step of a core with no fault: the host's next call (R107). -/
def runCall (s : State) : Result := perform (nextCall s) (dropCall s)

/-- The same state with two bytes stored where the next tick fetches: at pc and pc + 1 (R101), each address modulo 4096. -/
def placeWord (s : State) (bytes : List Byte) : State := s.storeBytes s.pc 0 bytes

/-- The same state with the host's next call a tick: a queue with no tick in front gets one, with free inputs. -/
def withTickNext (s : State) : State :=
  match s.host.calls with
  | .tick _ _ :: _ => s
  | .timerAdvance :: cs => { s with host := { s.host with calls := freeTick s.host.draws :: .timerAdvance :: cs } }
  | [] => { s with host := { s.host with calls := [freeTick s.host.draws] } }

end Sys2Proof.Machine
end

