-- ==== Sys2Proof/Machine/Step.lean ====
section
/-! DEFINITION. One step of the machine: one call of the host (R100, R107). -/

namespace Sys2Proof.Machine

/-- One step: a faulted core has none (R202), and any other core performs the host's next call. -/
def step (s : State) : Host.Outcome State Fault Refusal :=
  match s.fault with
  | some r => .fault (.coreFaulted r)
  | none => runCall s

/-- `s` with the instruction whose bits are `w` stored where the next step fetches, and all that this takes:
no fault recorded, and a tick the host's next call (log 24). -/
def State.withFetchWord (s : State) (nbits w : Nat) : State :=
  withTickNext (placeWord { s with fault := none } (tableBytes nbits w))

end Sys2Proof.Machine
end

