-- ==== Sys2Proof/Machine/Launch.lean ====
section
/-! DEFINITION. Launch and boot (R230 to R233): what the collaborators do before the first tick. -/

namespace Sys2Proof.Machine

/-- A new engine instance over a launch memory (R43, R230): reset, with memory as it stands. -/
def State.launch (m : Memory) : State := { State.reset with mem := m }

/-- The largest ROM: the space from 0x200 to the end of memory, 0xE00 bytes (R233). -/
def maxRomBytes : Nat := Config.memSize - Config.romBase

/-- Boot (R232): the font to 0x000, then the ROM from 0x200 after the size check of R233, then the engine in its reset
state, with the host's calls free from there on (R107). None: the ROM is too long, a load-time error of the loader, and no tick runs (R233). -/
def boot (font rom : List Byte) : Option State :=
  if rom.length ≤ maxRomBytes then
    some (((State.launch []).storeBytes 0 0 font).storeBytes (BitVec.ofNat 16 Config.romBase) 0 rom)
  else none

end Sys2Proof.Machine
end

