-- ==== Sys2Proof/Safety.lean ====
section
/-! DEFINITION. What counts as a safe run, the invariant of the machine, the frames, and the spec's own predicates on states
(clean launch R231, end of a program R239), in the terms the statements use. -/

namespace Sys2Proof.Machine

/-! ## Safe runs and faults -/

/-- A safe run of `n` steps: every step had a next state and no fault is recorded (R202). -/
def RunsSafely (n : Nat) (s : State) : Prop := ∃ t, Host.Core.run core n s = .next t ∧ t.fault = none

/-- When a tick that fetched word `w` in state `s` faults with a cause: the table of R200. -/
def FaultCondition (c : FaultCause) (w : Word) (s : State) : Prop :=
  match c with
  | .decodeFault => ∃ e, decode w = .error e
  | .stackOverflow => (∃ nnn, decode w = .ok (.call nnn)) ∧ s.sp.val = Config.stackCapacity
  | .stackUnderflow => decode w = .ok .ret ∧ s.sp.val = 0
  | .keyIndexFault => ∃ x, (decode w = .ok (.skp x) ∨ decode w = .ok (.sknp x)) ∧ 15 < (s.reg x).toNat

/-- The state just before the tick's instruction executes: the call off the queue, its inputs brought in, and pc advanced
by 2 (R102, R104, R107). -/
def duringTick (k : Keypad) (rnd : Byte) (s : State) : State :=
  { s with
    pc := s.pc + 2
    host := { calls := s.host.calls.tail, keypad := k, rnd := rnd, draws := s.host.draws + 1 } }

/-- The state a faulting tick leaves: the state before the tick, but for the fault record (R105, R201) and the host's inputs
(log 26). -/
def faultedTick (c : FaultCause) (k : Keypad) (rnd : Byte) (s : State) : State :=
  { s with
    fault := some ⟨c, s.fetchWord, s.pc⟩
    host := { calls := s.host.calls.tail, keypad := k, rnd := rnd, draws := s.host.draws + 1 } }

/-! ## The invariant -/

/-- What every step keeps: memory is in its canonical form, and a recorded fault is precise and explained, that is, the record
names the word and the address pc still holds (R201) and the state still shows the cause (R200, R105). -/
structure State.Inv (s : State) : Prop where
  memoryCanonical : s.mem.wf = true
  faultPrecise : ∀ r, s.fault = some r → r.addr = s.pc ∧ r.opcode = s.fetchWord
  faultExplained : ∀ r, s.fault = some r → FaultCondition r.cause r.opcode s

/-! ## Launch and end -/

/-- A clean launch of a font of 80 bytes and a ROM of at most 0xE00 (R231, R40 to R42): the reset state over a memory that holds
the font at 0x000, zero up to 0x1FF, and the ROM from 0x200. Clause 4 of R231 fixes nothing above the ROM, and neither does
this; nor does it fix the host's calls, which may come in any interleaving (R107, R232). -/
structure CleanLaunch (font rom : List Byte) (s : State) : Prop where
  fontLength : font.length = Config.fontBytes
  romFits : rom.length ≤ maxRomBytes
  resetState : s = { State.reset with mem := s.mem, host := s.host }
  fontPlaced : ∀ k, (h : k < font.length) → s.memRead k = font[k]
  zeroBelowRom : ∀ k, Config.fontBytes ≤ k → k < Config.romBase → s.memRead k = 0
  romPlaced : ∀ j, (h : j < rom.length) → s.memRead (Config.romBase + j) = rom[j]

/-- The program has ended at address `e` (R239): no fault, pc = e, and memory holds the word of `JP e` there. -/
structure EndedAt (e : BitVec 12) (s : State) : Prop where
  noFault : s.fault = none
  atEnd : s.pc = zextAddr e
  selfJump : s.fetchWord = 0x1000#16 ||| zextAddr e

/-! ## Sequences of operations -/

/-- Write bytes one after another, each an address and a value. -/
def writeAll : List (Nat × Byte) → State → State
  | [], s => s
  | w :: ws, s => writeAll ws (s.memWrite w.1 w.2)

/-- Push a list of addresses, the first first. -/
def pushAll : List Word → State → Except FaultCause State
  | [], s => .ok s
  | a :: as, s =>
    match push a s with
    | .ok t => pushAll as t
    | .error c => .error c

/-- Pop `n` addresses, the first popped first in the list. -/
def popMany : Nat → State → Except FaultCause (List Word × State)
  | 0, s => .ok ([], s)
  | n + 1, s =>
    match pop s with
    | .error c => .error c
    | .ok (a, t) =>
      match popMany n t with
      | .ok (as, u) => .ok (a :: as, u)
      | .error c => .error c

/-! ## Frames -/

/-- Every byte of memory reads as before. -/
def KeepsMemory (s t : State) : Prop := ∀ a, t.memRead a = s.memRead a

/-- Every byte of memory outside the `n` bytes of a transfer based at `base` (R52) reads as before. -/
def KeepsMemoryOutside (base : Word) (n : Nat) (s t : State) : Prop :=
  ∀ a, (∀ k, k < n → a % Config.memSize ≠ memAddr base k) → t.memRead a = s.memRead a

/-- Every general register outside `ds` is as before. -/
def KeepsRegsBut (ds : List Reg) (s t : State) : Prop := ∀ r, r ∉ ds → t.reg r = s.reg r

/-- Nothing but the general registers `ds` changes: no other register, no byte of memory, and neither I, pc, a timer, the
stack, a pixel, the fault record nor the trace. -/
def OnlyRegsChange (ds : List Reg) (s t : State) : Prop :=
  KeepsRegsBut ds s t ∧ KeepsMemory s t ∧ t = { s with v := t.v }

/-! ## Which instruction may write what (R24, R26, R28, R30, R31, R33, R55) -/

/-- The general registers an instruction names as destinations (R23, R24). -/
def writesReg (i : Instr) (r : Reg) : Bool :=
  match i with
  | .ldImm x _ | .addImm x _ | .ldReg x _ | .or x _ | .and x _ | .xor x _ | .addReg x _ | .sub x _ => r == x
  | .shr x | .shl x | .rnd x _ | .ldVxDT x | .ldVxK x => r == x
  | .subn x y => r == subnTarget Config.subnDest x y
  | .loadRegs x => decide (r.val ≤ x.val)
  | .cls | .ret | .jp _ | .call _ | .seImm _ _ | .sneImm _ _ | .seReg _ _ | .sneReg _ _ | .ldI _ | .jpV0 _ => false
  | .drw _ _ _ | .skp _ | .sknp _ | .ldDT _ | .ldST _ | .addI _ | .ldF _ | .ldB _ | .storeRegs _ => false

/-- The instructions that write VF as a flag: exactly the six of R24. -/
def writesFlag (i : Instr) : Bool :=
  match i with
  | .addReg _ _ | .sub _ _ | .shr _ | .subn _ _ | .shl _ | .drw _ _ _ => true
  | .cls | .ret | .jp _ | .call _ | .seImm _ _ | .sneImm _ _ | .seReg _ _ | .sneReg _ _ | .ldI _ | .jpV0 _ => false
  | .ldImm _ _ | .addImm _ _ | .ldReg _ _ | .or _ _ | .and _ _ | .xor _ _ | .rnd _ _ | .ldVxDT _ | .ldVxK _ => false
  | .skp _ | .sknp _ | .ldDT _ | .ldST _ | .addI _ | .ldF _ | .ldB _ | .storeRegs _ | .loadRegs _ => false

/-- The instructions that may set pc after the fetch's advance (R28). -/
def writesPc (i : Instr) : Bool :=
  match i with
  | .ret | .jp _ | .call _ | .seImm _ _ | .sneImm _ _ | .seReg _ _ | .sneReg _ _ | .jpV0 _ => true
  | .skp _ | .sknp _ | .ldVxK _ => true
  | .cls | .ldImm _ _ | .addImm _ _ | .ldReg _ _ | .or _ _ | .and _ _ | .xor _ _ | .addReg _ _ | .sub _ _ => false
  | .shr _ | .subn _ _ | .shl _ | .ldI _ | .rnd _ _ | .drw _ _ _ | .ldVxDT _ | .ldDT _ | .ldST _ => false
  | .addI _ | .ldF _ | .ldB _ | .storeRegs _ | .loadRegs _ => false

end Sys2Proof.Machine
end

