-- ==== Sys2Proof/Certificates/Slice0/Obligations.lean ====
section
/-! DEFINITION. The statements for the provers. `s` is the state an instruction executes in, with pc already past the
instruction (R102); `t` is the state after. -/

open Sys2Proof Sys2Proof.Machine

/-! ## Encoding -/

/-- R81 with R75: the encoder and the decoder agree on every well-formed instruction, as words and as bytes. The patterns
are presumed (D6, log 5), and that the Y field of SHR and SHL is no operand is the spec's choice (D8, log 7). -/
def Obligations.DecodeInvertsEncode : Prop :=
  ∀ i : Instr, i.wellFormed = true →
    decode (encode i) = .ok i ∧ ∀ rest, decodeBytes (encodeBytes i ++ rest) = .ok (i, rest)

/-- R75, R76, R77: every word decodes by the table, whose patterns are presumed (D6, log 5). A word that decodes selects its
instruction's row, a word that selects a row decodes to an instruction of that row (so no word selects two), and a word that
selects none is refused by name, which is the spec's choice (D7, log 6). -/
def Obligations.DecodeFollowsOpcodeTable : Prop :=
  ∀ w : Word,
    (∀ i, decode w = .ok i → i.row ∈ opcodeTable ∧ i.row.selects w = true) ∧
    (∀ r ∈ opcodeTable, r.selects w = true → ∃ i, decode w = .ok i ∧ i.row = r) ∧
    ((∀ r ∈ opcodeTable, r.selects w = false) → decode w = .error (.noPattern w))

/-- R78 (D8): the decoder drops no bit of a word but the Y field of SHR and SHL, and every Y gives the same instruction.
That Y is ignored is the spec's choice (D8, log 7), and the patterns are presumed (D6, log 5). -/
def Obligations.OnlyShiftsIgnoreBits : Prop :=
  (∀ (w : Word) (i : Instr), decode w = .ok i →
    i.wellFormed = true ∧
      (encode i = w ∨ ((∃ x, i = .shr x ∨ i = .shl x) ∧ encode i = w &&& 0xFF0F))) ∧
  ∀ x y : Reg, decode (wordXY 0x8 x y 0x6) = .ok (.shr x) ∧ decode (wordXY 0x8 x y 0xE) = .ok (.shl x)

/-- Words the spec writes out (R81, the examples of files 41 to 45, V17, V99, V104), one of each family. The patterns are
presumed (D6, log 5); refusing 0x5121 and 0x0000 is the spec's choice (R77, D7, log 6), and so is ignoring the Y field of
0x8FE6 (R78, D8, log 7). -/
def Obligations.SpecWordsDecode : Prop :=
  decode 0x8124 = .ok (.addReg 1 2) ∧ decode 0xA300 = .ok (.ldI 0x300) ∧ decode 0xD012 = .ok (.drw 0 1 2) ∧
  decode 0x00EE = .ok .ret ∧ decode 0x332A = .ok (.seImm 3 0x2A) ∧ decode 0xF255 = .ok (.storeRegs 2) ∧
  decode 0xE29E = .ok (.skp 2) ∧ decode 0xF30A = .ok (.ldVxK 3) ∧ decode 0x8FE6 = .ok (.shr 15) ∧
  decode 0x5121 = .error (.noPattern 0x5121) ∧ decode 0x0000 = .error (.noPattern 0x0000)

/-! ## The tick and the host's calls -/

/-- R54: the fetch composes the bytes at pc and pc + 1, big-endian. That each address is reduced modulo 4096 by itself is the
spec's choice (R52, D3, log 3). -/
def Obligations.FetchIsBigEndian : Prop :=
  ∀ s : State, s.fetchWord.toNat =
    (s.mem.lookup (s.pc.toNat % 4096)).toNat * 256 + (s.mem.lookup ((s.pc.toNat + 1) % 4096)).toNat

/-- R101, R102: a tick runs the decoded instruction on the state with pc advanced by 2 and the tick's inputs brought in, and
an instruction that does not write pc leaves it there. That the host's call leaves the queue and the call index moves on is
the model's choice (log 18). -/
def Obligations.StepRunsDecodedInstruction : Prop :=
  ∀ (s : State) (k : Keypad) (b : Byte) (i : Instr),
    s.fault = none → nextCall s = .tick k b → decode s.fetchWord = .ok i →
      step s = exec i (duringTick k b s) ∧ (writesPc i = false → ∃ t, step s = .next t ∧ t.pc = s.pc + 2)

/-- R103, R105: a tick whose word matches no row records a decode fault and changes nothing else of the machine. That such a
word faults is the spec's choice (D7, log 6), and so is the state after a fault (D14, log 13); that the host's call, inputs
and index are used up is the model's (log 26). -/
def Obligations.UnmatchedWordFaults : Prop :=
  ∀ (s : State) (k : Keypad) (b : Byte) (e : DecodeError),
    s.fault = none → nextCall s = .tick k b → decode s.fetchWord = .error e →
      step s = .next (faultedTick .decodeFault k b s)

/-- R107 (D19, log 18): the host's queued calls are performed one by one in their order, whatever their interleaving; with none
queued the next call is a timer advance or a tick as the free value says, and a tick's inputs are free values. -/
def Obligations.CallsRunInHostOrder : Prop :=
  (∀ (s : State) (c : HostCall) (cs : List HostCall), s.fault = none → s.host.calls = c :: cs →
    step s = perform c { s with host := { s.host with calls := cs, draws := s.host.draws + 1 } }) ∧
  ∀ s : State, s.host.calls = [] →
    (Config.freeTimerAdvance s.host.draws = true → nextCall s = .timerAdvance) ∧
    (Config.freeTimerAdvance s.host.draws = false →
      nextCall s = .tick (freeKeypad s.host.draws) (Config.freeRandom s.host.draws))

/-- R107, R236 (D19, log 18): any number of timer advances may come before the next tick, from every state with no fault. They
lower each timer by their number but not below 0, beep iff the sound timer reaches 0, and change nothing else but the host's
inputs. -/
def Obligations.TimersMoveBetweenInstructions : Prop :=
  ∀ (n : Nat) (cs : List HostCall) (s : State), s.fault = none →
    s.host.calls = List.replicate n .timerAdvance ++ cs →
      ∃ t, Host.Core.run core n s = .next t ∧ t.host.calls = cs ∧
        t.dt.toNat = s.dt.toNat - n ∧ t.st.toNat = s.st.toNat - n ∧
        t.trace = s.trace ++ (if 0 < s.st.toNat ∧ s.st.toNat ≤ n then [.beep] else []) ∧
        t = { s with dt := t.dt, st := t.st, trace := t.trace, host := t.host }

/-- The model's loading of a word (log 24), from any state: the word stands at pc, every other byte of memory and every
register, timer, stack entry, pixel and event is as it was, no fault is recorded, of the host's inputs only the queue may
change, and the very next step runs exactly the instruction placed. The two bytes' addresses are reduced modulo 4096 by the
spec's choice (R52, D3, log 3). -/
def Obligations.PlacedWordRunsNext : Prop :=
  ∀ (s : State) (w : Nat) (i : Instr), decodeTableWord 16 w = some i →
    ∃ t, s.withFetchWord 16 w = t ∧ t.fetchWord = BitVec.ofNat 16 w ∧ KeepsMemoryOutside s.pc 2 s t ∧
      t = { s with mem := t.mem, fault := none, host := { s.host with calls := t.host.calls } } ∧
      ∃ k b, nextCall t = .tick k b ∧ step t = exec i (duringTick k b t)

/-! ## Faults -/

/-- R202 (D14): a core with no fault always has a next state, and a faulted core has none. No step is refused. A final fault
is the spec's choice (D14, log 13). -/
def Obligations.FaultedCoreAloneHasNoStep : Prop :=
  ∀ s : State, (s.fault = none → ∃ t, step s = .next t) ∧
    ∀ r, s.fault = some r → step s = .fault (.coreFaulted r)

/-- R105, R201 (D14): a step that leaves a fault recorded was a tick, and it left every part of the state as before it but
the record, which names the fetched word and its address. The host's inputs are the model's own (log 26). The state after a
fault is the spec's choice (D14, log 13). -/
def Obligations.FaultsArePrecise : Prop :=
  ∀ (s t : State) (r : FaultRecord), step s = .next t → t.fault = some r →
    t = { s with fault := some r, host := t.host } ∧ r.opcode = s.fetchWord ∧ r.addr = s.pc ∧
      ∃ k b, nextCall s = .tick k b

/-- R106, R200, R203: a tick faults with a cause exactly when that cause's condition holds, at most one does, and with none
it leaves no fault. The conditions are the spec's choices: the stack's capacity (D1, log 1), its overflow and underflow (D2,
log 2), words with no row (D7, log 6) and keys above 15 (D9, log 8). So is the record of the fetched word and pc (D14, log
13). -/
def Obligations.TicksFaultExactlyOnTheirConditions : Prop :=
  ∀ (s t : State) (k : Keypad) (b : Byte),
    s.fault = none → nextCall s = .tick k b → step s = .next t →
      (∀ c, t.fault = some ⟨c, s.fetchWord, s.pc⟩ ↔ FaultCondition c s.fetchWord s) ∧
      (t.fault = none ↔ ∀ c, ¬FaultCondition c s.fetchWord s) ∧
      ∀ c d, FaultCondition c s.fetchWord s → FaultCondition d s.fetchWord s → c = d

/-- R200 (D21): the cause codes. They are the spec's own numbering (log 20). -/
def Obligations.FaultCauseCodes : Prop :=
  FaultCause.decodeFault.code = 1 ∧ FaultCause.stackOverflow.code = 2 ∧ FaultCause.stackUnderflow.code = 3 ∧
  FaultCause.keyIndexFault.code = 4

/-! ## Reset, launch and the invariant -/

/-- R40: what reset zeroes, and the reset vector. -/
def Obligations.ResetZeroesRegisters : Prop :=
  State.reset.pc = 0x200 ∧ (∀ r, State.reset.reg r = 0) ∧ State.reset.i = 0 ∧ State.reset.dt = 0 ∧
  State.reset.st = 0 ∧ State.reset.sp.val = 0 ∧
  ∀ k, (h : k < Config.stackCapacity) → State.reset.stack[k] = 0

/-- R41, R42 (D14, D15, D23): the framebuffer, the fault record and the trace at reset, the spec's own choices. They are
logs 13, 14 and 21. -/
def Obligations.ResetClearsDisplayAndRecords : Prop :=
  (∀ py px, State.reset.fb.pixel py px = false) ∧ State.reset.fault = none ∧ State.reset.trace = []

/-- R231, R232, R233: booting a font of 80 bytes and a ROM of at most 0xE00 bytes gives a clean launch, and a longer ROM is
refused before any tick and has no clean launch. The loader as one function is the model's choice (log 27), and a clean
launch's framebuffer is the spec's (D15, log 14). -/
def Obligations.BootGivesCleanLaunch : Prop :=
  ∀ font rom : List Byte, font.length = 80 →
    (rom.length ≤ 0xE00 → ∃ s, boot font rom = some s ∧ CleanLaunch font rom s) ∧
    (0xE00 < rom.length → boot font rom = none ∧ ∀ s, ¬CleanLaunch font rom s)

/-- The invariant holds at reset, over every canonical launch memory, and after every boot. The canonical form of memory and
the loader are the model's choices (log 15, log 27). -/
def Obligations.InvariantHoldsAtLaunch : Prop :=
  State.reset.Inv ∧ (∀ m : Memory, m.wf = true → (State.launch m).Inv) ∧
  ∀ font rom s, boot font rom = some s → s.Inv

/-- Every step keeps the invariant, from every state that meets it. The canonical form of memory is the model's choice (log
15); precise faults are the spec's (D14, log 13), and so are the causes' conditions (D1, D2, D7, D9; logs 1, 2, 6, 8). -/
def Obligations.StepKeepsInvariant : Prop :=
  ∀ s t : State, s.Inv → step s = .next t → t.Inv

/-! ## Memory -/

/-- R57: after any sequence of writes, a read of an address returns the last byte written there, or what it read before if
none was; the writes change nothing but memory. Addresses are the same when they are equal modulo 4096 (R52, D3, log 3). -/
def Obligations.ReadsReturnLastWrite : Prop :=
  ∀ (s : State) (ws : List (Nat × Byte)) (b : Nat),
    (writeAll ws s).memRead b =
      (match ws.reverse.find? fun w => w.1 % 4096 == b % 4096 with
        | some w => w.2
        | none => s.memRead b) ∧
    writeAll ws s = { s with mem := (writeAll ws s).mem }

/-- R62: a store into the bytes at pc is what the next fetch reads. That each address is reduced modulo 4096 by itself is
the spec's choice (R52, D3, log 3). -/
def Obligations.FetchSeesStores : Prop :=
  ∀ (s : State) (hi lo : Byte),
    ((s.memWrite s.pc.toNat hi).memWrite (s.pc.toNat + 1) lo).fetchWord.toNat = hi.toNat * 256 + lo.toNat

/-- The model's canonical form (log 15): memories with the same 4096 bytes are the same data. -/
def Obligations.CanonicalMemoryIsUnique : Prop :=
  ∀ m n : Memory, m.wf = true → n.wf = true → (∀ a, a < 4096 → m.lookup a = n.lookup a) → m = n

/-! ## Control flow (41_control_flow.md) -/

/-- R123: `pc <- zext_16(NNN)`, and nothing else changes. -/
def Obligations.JumpSetsPc : Prop :=
  ∀ (nnn : BitVec 12) (s : State), ∃ t, exec (.jp nnn) s = .next t ∧
    t.pc.toNat = nnn.toNat ∧ t = { s with pc := t.pc } ∧ KeepsMemory s t

/-- R124, R120 (D1, D2): with room on the stack, CALL pushes the advanced pc and jumps; other entries keep their values. The
capacity and the overflow beyond it are the spec's choices (logs 1 and 2). -/
def Obligations.CallPushesReturnAddress : Prop :=
  ∀ (nnn : BitVec 12) (s : State), (h : s.sp.val < Config.stackCapacity) →
    ∃ t, exec (.call nnn) s = .next t ∧
      t.pc.toNat = nnn.toNat ∧ t.sp.val = s.sp.val + 1 ∧ t.stack[s.sp.val] = s.pc ∧
      (∀ k, (hk : k < Config.stackCapacity) → k ≠ s.sp.val → t.stack[k] = s.stack[k]) ∧
      t = { s with pc := t.pc, sp := t.sp, stack := t.stack } ∧ KeepsMemory s t

/-- R122, R121 (D2): with an entry in use, RET pops it into pc; the entry is not cleared. The underflow of an empty stack is
the spec's choice (log 2). -/
def Obligations.RetPopsReturnAddress : Prop :=
  ∀ s : State, 0 < s.sp.val → ∃ t, exec .ret s = .next t ∧
    t.sp.val + 1 = s.sp.val ∧ (∀ h : t.sp.val < Config.stackCapacity, t.pc = s.stack[t.sp.val]) ∧
    t = { s with pc := t.pc, sp := t.sp } ∧ KeepsMemory s t

/-- R120, R121, R201 (D2, D14): CALL on a full stack and RET on an empty one record their faults at the address of the
instruction, pc - 2, with the word found there, and change nothing else. These are the spec's choices (D1, D2, D14; logs 1,
2, 13); that the record takes pc - 2 and the word read there again, in any state, is DEDUCED (log 25). -/
def Obligations.StackFaultsAreRecorded : Prop :=
  ∀ (nnn : BitVec 12) (s : State),
    (s.sp.val = Config.stackCapacity → exec (.call nnn) s = .next { s with
      pc := s.pc - 2, fault := some ⟨.stackOverflow, s.wordAt (s.pc - 2), s.pc - 2⟩ }) ∧
    (s.sp.val = 0 → exec .ret s = .next { s with
      pc := s.pc - 2, fault := some ⟨.stackUnderflow, s.wordAt (s.pc - 2), s.pc - 2⟩ })

/-- R122, R124: after a CALL, a RET in any later state with the stack the CALL left returns to the instruction after the
CALL, at the depth before it. The capacity is the spec's choice (D1, log 1). -/
def Obligations.RetUndoesCall : Prop :=
  ∀ (nnn : BitVec 12) (s : State), s.sp.val < Config.stackCapacity →
    ∃ t, exec (.call nnn) s = .next t ∧ ∀ u : State, u.stack = t.stack → u.sp = t.sp →
      ∃ w, exec .ret u = .next w ∧ w.pc = s.pc ∧ w.sp = s.sp ∧ w.stack = u.stack

/-- R121, R120: the stack is strict LIFO. Addresses pushed are popped in reverse order, as many as fit, and one more than
fit overflows. The capacity and the overflow are the spec's choices (D1, D2; logs 1 and 2). -/
def Obligations.StackIsLastInFirstOut : Prop :=
  ∀ (as : List Word) (s : State),
    (s.sp.val + as.length ≤ Config.stackCapacity → ∃ t u, pushAll as s = .ok t ∧ t.sp.val = s.sp.val + as.length ∧
      popMany as.length t = .ok (as.reverse, u) ∧ u.sp = s.sp ∧ u.stack = t.stack) ∧
    (Config.stackCapacity < s.sp.val + as.length → pushAll as s = .error .stackOverflow)

/-- R125, R126: skip when the register equals, or differs from, the immediate. -/
def Obligations.ImmediateSkips : Prop :=
  ∀ (x : Reg) (kk : Byte) (s : State),
    exec (.seImm x kk) s = .next { s with pc := if s.reg x = kk then s.pc + 2 else s.pc } ∧
    exec (.sneImm x kk) s = .next { s with pc := if s.reg x = kk then s.pc else s.pc + 2 }

/-- R127, R128: skip when two registers are equal, or differ. -/
def Obligations.RegisterSkips : Prop :=
  ∀ (x y : Reg) (s : State),
    exec (.seReg x y) s = .next { s with pc := if s.reg x = s.reg y then s.pc + 2 else s.pc } ∧
    exec (.sneReg x y) s = .next { s with pc := if s.reg x = s.reg y then s.pc else s.pc + 2 }

/-- R108: a tick whose compare skips moves pc by 4 and never faults, whatever the skipped word is. That SKP and SKNP read
the key-down flags of the tick's keypad is the spec's choice (D10, log 9), and that the host's inputs alone change beside pc
is the model's form (log 18). -/
def Obligations.SkippedWordIsNotDecoded : Prop :=
  ∀ (s : State) (k : Keypad) (b : Byte) (i : Instr),
    s.fault = none → nextCall s = .tick k b → decode s.fetchWord = .ok i →
    ((∃ x kk, (i = .seImm x kk ∧ s.reg x = kk) ∨ (i = .sneImm x kk ∧ s.reg x ≠ kk)) ∨
      (∃ x y, (i = .seReg x y ∧ s.reg x = s.reg y) ∨ (i = .sneReg x y ∧ s.reg x ≠ s.reg y)) ∨
      (∃ x, ∃ h : (s.reg x).toNat < 16,
        (i = .skp x ∧ k.down[(s.reg x).toNat] = true) ∨ (i = .sknp x ∧ k.down[(s.reg x).toNat] = false))) →
    ∃ t, step s = .next t ∧ t = { s with pc := s.pc + 4, host := t.host }

/-- R129: the sum of V0 and the low byte of NNN is truncated to 8 bits before it becomes pc. -/
def Obligations.JumpV0Truncates : Prop :=
  ∀ (nnn : BitVec 12) (s : State), ∃ t, exec (.jpV0 nnn) s = .next t ∧
    t.pc.toNat = ((s.reg 0).toNat + nnn.toNat % 256) % 256 ∧ t = { s with pc := t.pc } ∧ KeepsMemory s t

/-- R239 (D18, log 17): in a state where the program has ended, a tick leaves everything but the host's inputs unchanged, so
the program stays ended. The host's inputs move on by the model's choice (log 18). -/
def Obligations.EndedProgramStaysEnded : Prop :=
  ∀ (e : BitVec 12) (s : State) (k : Keypad) (b : Byte), EndedAt e s → nextCall s = .tick k b →
    ∃ t, step s = .next t ∧ t = { s with host := t.host } ∧ EndedAt e t

/-! ## Register arithmetic and logic (42_alu.md) -/

/-- R140, R141, R142: load an immediate, add an immediate modulo 256 with no flag, copy a register. -/
def Obligations.LoadsAndImmediateAdd : Prop :=
  ∀ (x y : Reg) (kk : Byte) (s : State),
    (∃ t, exec (.ldImm x kk) s = .next t ∧ t.reg x = kk ∧ OnlyRegsChange [x] s t) ∧
    (∃ t, exec (.addImm x kk) s = .next t ∧ (t.reg x).toNat = ((s.reg x).toNat + kk.toNat) % 256 ∧
      OnlyRegsChange [x] s t) ∧
    (∃ t, exec (.ldReg x y) s = .next t ∧ t.reg x = s.reg y ∧ OnlyRegsChange [x] s t)

/-- R143, R144, R145: bitwise OR, AND and exclusive OR in place, bit by bit, with no flag. -/
def Obligations.BitwiseOperations : Prop :=
  ∀ (x y : Reg) (s : State),
    (∃ t, exec (.or x y) s = .next t ∧ OnlyRegsChange [x] s t ∧
      ∀ k, k < 8 → (t.reg x).getLsbD k = ((s.reg x).getLsbD k || (s.reg y).getLsbD k)) ∧
    (∃ t, exec (.and x y) s = .next t ∧ OnlyRegsChange [x] s t ∧
      ∀ k, k < 8 → (t.reg x).getLsbD k = ((s.reg x).getLsbD k && (s.reg y).getLsbD k)) ∧
    (∃ t, exec (.xor x y) s = .next t ∧ OnlyRegsChange [x] s t ∧
      ∀ k, k < 8 → (t.reg x).getLsbD k = ((s.reg x).getLsbD k ^^ (s.reg y).getLsbD k))

/-- R146: the sum modulo 256, and VF 1 iff the exact sum exceeds 255. The destination VF is in VfDestinationClash. -/
def Obligations.AddSetsCarry : Prop :=
  ∀ (x y : Reg) (s : State), x ≠ vf → ∃ t, exec (.addReg x y) s = .next t ∧
    (t.reg x).toNat = ((s.reg x).toNat + (s.reg y).toNat) % 256 ∧
    (t.reg vf).toNat = (if (s.reg x).toNat + (s.reg y).toNat > 255 then 1 else 0) ∧ OnlyRegsChange [x, vf] s t

/-- R147: Vx - Vy modulo 256, and VF 1 iff no borrow. The destination VF is in VfDestinationClash. -/
def Obligations.SubSetsNoBorrow : Prop :=
  ∀ (x y : Reg) (s : State), x ≠ vf → ∃ t, exec (.sub x y) s = .next t ∧
    ((t.reg x).toNat : Int) = ((s.reg x).toNat - (s.reg y).toNat : Int) % 256 ∧
    (t.reg vf).toNat = (if (s.reg x).toNat ≥ (s.reg y).toNat then 1 else 0) ∧ OnlyRegsChange [x, vf] s t

/-- R149, R11 (D13, log 12): with this hardware's SUBN_DEST, Vy - Vx modulo 256 goes to Vy, and VF is 1 iff no borrow; Vx is
unchanged unless it is Vy or VF. The destination VF is in VfDestinationClash. -/
def Obligations.SubnWritesVy : Prop :=
  ∀ (x y : Reg) (s : State), y ≠ vf → ∃ t, exec (.subn x y) s = .next t ∧
    ((t.reg y).toNat : Int) = ((s.reg y).toNat - (s.reg x).toNat : Int) % 256 ∧
    (t.reg vf).toNat = (if (s.reg y).toNat ≥ (s.reg x).toNat then 1 else 0) ∧ OnlyRegsChange [y, vf] s t

/-- R148: VF gets bit 0 of Vx before the shift, and Vx is halved. The destination VF is in VfDestinationClash. -/
def Obligations.ShrShiftsBitIntoVf : Prop :=
  ∀ (x : Reg) (s : State), x ≠ vf → ∃ t, exec (.shr x) s = .next t ∧
    (t.reg x).toNat = (s.reg x).toNat / 2 ∧ (t.reg vf).toNat = (s.reg x).toNat % 2 ∧ OnlyRegsChange [x, vf] s t

/-- R150: VF gets bit 7 of Vx as the raw value 0x80 or 0x00, and Vx is doubled modulo 256. The destination VF is in
VfDestinationClash. -/
def Obligations.ShlShiftsRawBitIntoVf : Prop :=
  ∀ (x : Reg) (s : State), x ≠ vf → ∃ t, exec (.shl x) s = .next t ∧
    (t.reg x).toNat = (s.reg x).toNat * 2 % 256 ∧
    (t.reg vf).toNat = (if (s.reg x).toNat ≥ 128 then 0x80 else 0x00) ∧ OnlyRegsChange [x, vf] s t

/-- R152 (D12, log 11): with VF the destination, ADD, SUB and SUBN leave the flag, and SHR and SHL leave 0. Nothing but VF
changes. That SUBN's destination is Vy is the spec's choice too (D13, log 12). -/
def Obligations.VfDestinationClash : Prop :=
  ∀ (y : Reg) (s : State),
    (∃ t, exec (.addReg vf y) s = .next t ∧ OnlyRegsChange [vf] s t ∧
      (t.reg vf).toNat = if (s.reg vf).toNat + (s.reg y).toNat > 255 then 1 else 0) ∧
    (∃ t, exec (.sub vf y) s = .next t ∧ OnlyRegsChange [vf] s t ∧
      (t.reg vf).toNat = if (s.reg vf).toNat ≥ (s.reg y).toNat then 1 else 0) ∧
    (∃ t, exec (.subn y vf) s = .next t ∧ OnlyRegsChange [vf] s t ∧
      (t.reg vf).toNat = if (s.reg vf).toNat ≥ (s.reg y).toNat then 1 else 0) ∧
    (∃ t, exec (.shr vf) s = .next t ∧ OnlyRegsChange [vf] s t ∧ t.reg vf = 0) ∧
    (∃ t, exec (.shl vf) s = .next t ∧ OnlyRegsChange [vf] s t ∧ t.reg vf = 0)

/-- R12, R152 with the parameter `VF_CLASH = either` (log 30): after a clash VF holds one of the two values written, and no
other register changes; with no clash the two parameter values agree. The parameter and its values are the spec's choice
(D12). -/
def Obligations.EitherClashLeavesOneOfTheTwoWrites : Prop :=
  ∀ (d : Reg) (a f : Byte) (g : Byte → Byte) (s : State),
    ((resultThenFlag .either vf a f s).reg vf = a ∨ (resultThenFlag .either vf a f s).reg vf = f) ∧
    ((flagThenShift .either vf f g s).reg vf = f ∨ (flagThenShift .either vf f g s).reg vf = g f) ∧
    OnlyRegsChange [vf] s (resultThenFlag .either vf a f s) ∧ OnlyRegsChange [vf] s (flagThenShift .either vf f g s) ∧
    (d ≠ vf → resultThenFlag .either d a f s = resultThenFlag .textOrder d a f s ∧
      flagThenShift .either d f g s = flagThenShift .textOrder d f g s)

/-- R151 (D11, log 10): for every random byte, Vx gets the byte masked by KK; a bit that is 0 in KK is 0 in Vx. -/
def Obligations.RndMasksTheDraw : Prop :=
  ∀ (x : Reg) (kk : Byte) (s : State), ∃ t, exec (.rnd x kk) s = .next t ∧ OnlyRegsChange [x] s t ∧
    t.reg x = s.host.rnd &&& kk ∧ ∀ k, kk.getLsbD k = false → (t.reg x).getLsbD k = false

/-! ## Index register and memory transfers (43_index_memory.md) -/

/-- R160, R161: load I, and add a register to I modulo 65536, with no flag. -/
def Obligations.IndexLoadAndAdd : Prop :=
  ∀ (nnn : BitVec 12) (x : Reg) (s : State),
    (∃ t, exec (.ldI nnn) s = .next t ∧ t.i.toNat = nnn.toNat ∧ t = { s with i := t.i } ∧ KeepsMemory s t) ∧
    (∃ t, exec (.addI x) s = .next t ∧ t.i.toNat = (s.i.toNat + (s.reg x).toNat) % 65536 ∧
      t = { s with i := t.i } ∧ KeepsMemory s t)

/-- R162: I points at the glyph of Vx, `V[X] * 5`, with V[X] not masked. -/
def Obligations.FontAddress : Prop :=
  ∀ (x : Reg) (s : State), ∃ t, exec (.ldF x) s = .next t ∧ t.i.toNat = (s.reg x).toNat * 5 ∧
    t = { s with i := t.i } ∧ KeepsMemory s t

/-- R163: the hundreds, tens and ones digit of Vx at I, I + 1 and I + 2, and no other byte. That each address is reduced modulo
4096 by itself is the spec's choice (R52, D3, log 3). -/
def Obligations.BcdStoresThreeDigits : Prop :=
  ∀ (x : Reg) (s : State), ∃ t, exec (.ldB x) s = .next t ∧
    (t.memRead (memAddr s.i 0)).toNat = (s.reg x).toNat / 100 ∧
    (t.memRead (memAddr s.i 1)).toNat = (s.reg x).toNat / 10 % 10 ∧
    (t.memRead (memAddr s.i 2)).toNat = (s.reg x).toNat % 10 ∧
    KeepsMemoryOutside s.i 3 s t ∧ t = { s with mem := t.mem }

/-- R164 (D20, log 19): V0 to Vx at I to I + X, each address modulo 4096, and no other byte; I is unchanged. That I is
unchanged is the spec's choice (D20), and so is the reduction of each address by itself (R52, D3, log 3). -/
def Obligations.StoreRegisters : Prop :=
  ∀ (x : Reg) (s : State), ∃ t, exec (.storeRegs x) s = .next t ∧
    (∀ r : Reg, r.val ≤ x.val → t.memRead (memAddr s.i r.val) = s.reg r) ∧
    KeepsMemoryOutside s.i (x.val + 1) s t ∧ t = { s with mem := t.mem }

/-- R165 (D20, log 19): V0 to Vx from I to I + X, each address modulo 4096; I, memory and higher registers are unchanged.
That I is unchanged is the spec's choice (D20), and so is the reduction of each address by itself (R52, D3, log 3). -/
def Obligations.LoadRegisters : Prop :=
  ∀ (x : Reg) (s : State), ∃ t, exec (.loadRegs x) s = .next t ∧
    (∀ r : Reg, r.val ≤ x.val → t.reg r = s.memRead (memAddr s.i r.val)) ∧
    (∀ r : Reg, x.val < r.val → t.reg r = s.reg r) ∧ KeepsMemory s t ∧ t = { s with v := t.v }

/-- R164, R165: registers stored at I and loaded back from the same I, in any state with that memory, have their values. -/
def Obligations.StoreThenLoadRestoresRegisters : Prop :=
  ∀ (x : Reg) (s : State), ∃ t, exec (.storeRegs x) s = .next t ∧
    ∀ u : State, u.mem = t.mem → u.i = s.i → ∃ w, exec (.loadRegs x) u = .next w ∧
      ∀ r : Reg, r.val ≤ x.val → w.reg r = s.reg r

/-! ## Display (44_display.md) -/

/-- R174, R172: every pixel is 0 after CLS, and nothing else changes. -/
def Obligations.ClsClearsEveryPixel : Prop :=
  ∀ s : State, ∃ t, exec .cls s = .next t ∧ (∀ py px, t.fb.pixel py px = false) ∧
    t = { s with fb := t.fb } ∧ KeepsMemory s t

/-- R170, R171, R175: DRW flips exactly the pixels under the 1 bits of the n rows at I, drawn from (Vx, Vy) with wrap on both
axes, leaves every other pixel, and sets VF to 1 iff such a pixel was 1 before and to 0 otherwise. That each row's address is
reduced modulo 4096 by itself is the spec's choice (R52, D3, log 3). -/
def Obligations.DrwDrawsSprite : Prop :=
  ∀ (x y : Reg) (n : Nat) (s : State), (Instr.drw x y n).wellFormed = true → ∃ t, exec (.drw x y n) s = .next t ∧
    (∀ r c, r < n → c < 8 →
      t.fb.pixel (((s.reg y).toNat + r) % 32) (((s.reg x).toNat + c) % 64) =
        (s.fb.pixel (((s.reg y).toNat + r) % 32) (((s.reg x).toNat + c) % 64) ^^
          (s.memRead (memAddr s.i r)).getLsbD (7 - c))) ∧
    (∀ py px, py < 32 → px < 64 →
      (∀ r c, r < n → c < 8 → ¬(((s.reg y).toNat + r) % 32 = py ∧ ((s.reg x).toNat + c) % 64 = px)) →
      t.fb.pixel py px = s.fb.pixel py px) ∧
    (t.reg vf = 0 ∨ t.reg vf = 1) ∧
    (t.reg vf = 1 ↔ ∃ r c, r < n ∧ c < 8 ∧ (s.memRead (memAddr s.i r)).getLsbD (7 - c) = true ∧
      s.fb.pixel (((s.reg y).toNat + r) % 32) (((s.reg x).toNat + c) % 64) = true) ∧
    KeepsRegsBut [vf] s t ∧ KeepsMemory s t ∧ t = { s with v := t.v, fb := t.fb }

/-- R175: drawing the same sprite again at the same place restores the framebuffer, and the second draw collides iff the first
turned some pixel from 0 to 1. The second draw may name other registers with the same coordinates. -/
def Obligations.DrawTwiceRestoresDisplay : Prop :=
  ∀ (x y p q : Reg) (n : Nat) (s : State), (Instr.drw x y n).wellFormed = true →
    ∃ t, exec (.drw x y n) s = .next t ∧
      ∀ u : State, u.fb = t.fb → u.mem = t.mem → u.i = t.i → u.reg p = s.reg x → u.reg q = s.reg y →
        ∃ w, exec (.drw p q n) u = .next w ∧ w.fb = s.fb ∧
          (w.reg vf = 1 ↔ ∃ py px, py < 32 ∧ px < 64 ∧ s.fb.pixel py px = false ∧ t.fb.pixel py px = true)

/-! ## Timers and keypad (45_timers_keys.md) -/

/-- R180, R181, R182: read the delay timer, set the delay timer, set the sound timer; setting emits no beep. -/
def Obligations.TimerTransfers : Prop :=
  ∀ (x : Reg) (s : State),
    (∃ t, exec (.ldVxDT x) s = .next t ∧ t.reg x = s.dt ∧ OnlyRegsChange [x] s t) ∧
    (∃ t, exec (.ldDT x) s = .next t ∧ t.dt = s.reg x ∧ t = { s with dt := t.dt } ∧ KeepsMemory s t) ∧
    (∃ t, exec (.ldST x) s = .next t ∧ t.st = s.reg x ∧ t = { s with st := t.st } ∧ KeepsMemory s t)

/-- R183: a timer advance lowers each timer that is above 0 by 1, beeps iff the sound timer was 1, and changes nothing else. That
the host's call is used up and the call's index moves on is the model's choice (log 18). -/
def Obligations.TimerAdvanceCountsDown : Prop :=
  ∀ s : State, s.fault = none → nextCall s = .timerAdvance → ∃ t, step s = .next t ∧
    t.dt.toNat = s.dt.toNat - 1 ∧ t.st.toNat = s.st.toNat - 1 ∧
    t.trace = (if s.st = 1 then s.trace ++ [.beep] else s.trace) ∧
    t = { s with dt := t.dt, st := t.st, trace := t.trace, host := { s.host with calls := s.host.calls.tail, draws := s.host.draws + 1 } }

/-- R184: after LD ST with value v, n timer advances leave ST at v - n, and have beeped exactly once if 0 < v ≤ n and not at
all otherwise; and no tick beeps. -/
def Obligations.BeepOncePerActivation : Prop :=
  (∀ (x : Reg) (s : State) (n : Nat), ∃ t, exec (.ldST x) s = .next t ∧
    (timerAdvance^[n] t).st.toNat = (s.reg x).toNat - n ∧
    (timerAdvance^[n] t).trace =
      s.trace ++ (if 0 < (s.reg x).toNat ∧ (s.reg x).toNat ≤ n then [.beep] else [])) ∧
  ∀ (s t : State) (k : Keypad) (b : Byte), nextCall s = .tick k b → step s = .next t → t.trace = s.trace

/-- R185, R186 (D10): for a key number up to 15, skip when the key's down flag is set, or clear, in the tick's keypad. That
the flags are read, and not the marked key, is the spec's choice (log 9). -/
def Obligations.KeySkips : Prop :=
  ∀ (x : Reg) (s : State), (h : (s.reg x).toNat < 16) →
    exec (.skp x) s = .next
      { s with pc := if s.host.keypad.down[(s.reg x).toNat] = true then s.pc + 2 else s.pc } ∧
    exec (.sknp x) s = .next
      { s with pc := if s.host.keypad.down[(s.reg x).toNat] = true then s.pc else s.pc + 2 }

/-- R188, R201 (D9, log 8): for a value above 15, SKP and SKNP record a key index fault at the address of the instruction,
pc - 2, with the word found there, and change nothing else. The state after a fault is the spec's choice (D14, log 13); that
the record takes pc - 2 and the word read there again, in any state, is DEDUCED (log 25). -/
def Obligations.KeyIndexAbove15Faults : Prop :=
  ∀ (x : Reg) (s : State), 15 < (s.reg x).toNat →
    exec (.skp x) s = .next { s with
      pc := s.pc - 2, fault := some ⟨.keyIndexFault, s.wordAt (s.pc - 2), s.pc - 2⟩ } ∧
    exec (.sknp x) s = .next { s with
      pc := s.pc - 2, fault := some ⟨.keyIndexFault, s.wordAt (s.pc - 2), s.pc - 2⟩ }

/-- R187 (D10, log 9): with a key marked, LD Vx,K loads its number; with none, pc goes back by 2 and nothing else changes,
so that a tick that fetched it leaves pc where it was. In the last clause the host's inputs move on by the model's choice
(log 18). -/
def Obligations.KeyWaitPolls : Prop :=
  ∀ (x : Reg) (s : State),
    (∀ key : Key, s.host.keypad.last = some key →
      ∃ t, exec (.ldVxK x) s = .next t ∧ (t.reg x).toNat = key.val ∧ OnlyRegsChange [x] s t) ∧
    (s.host.keypad.last = none → exec (.ldVxK x) s = .next { s with pc := s.pc - 2 }) ∧
    (∀ k b, s.fault = none → nextCall s = .tick k b → decode s.fetchWord = .ok (.ldVxK x) → k.last = none →
      ∃ t, step s = .next t ∧ t = { s with host := t.host })

/-! ## Rules of the whole machine -/

/-- R23, R24: an instruction changes no general register but those it names as destinations and, if it is one of the six
flag writers, VF. SUBN's destination is the spec's choice (D13, log 12). -/
def Obligations.OnlyDestinationsAndFlagsChange : Prop :=
  ∀ (i : Instr) (s t : State) (r : Reg), exec i s = .next t → writesReg i r = false →
    (writesFlag i = false ∨ r ≠ vf) → t.reg r = s.reg r

/-- R26, R28, R30, R31, R33, R35, R36, R55: each other part of the state, the fault record and the trace included, is
changed by no instruction but those the rules name; and none changes the host's inputs, the model's own fields (log 23).
That LD [I],Vx and LD Vx,[I] leave I unchanged is the spec's choice (D20, log 19), and so is the fault record (D14, log 13).
-/
def Obligations.OnlyNamedInstructionsChangeEachPart : Prop :=
  ∀ (i : Instr) (s t : State), exec i s = .next t →
    (((∀ nnn, i ≠ .ldI nnn) ∧ (∀ x, i ≠ .addI x) ∧ ∀ x, i ≠ .ldF x) → t.i = s.i) ∧
    (writesPc i = false → t.pc = s.pc) ∧
    ((∀ x, i ≠ .ldDT x) → t.dt = s.dt) ∧
    ((∀ x, i ≠ .ldST x) → t.st = s.st) ∧
    ((i ≠ .ret ∧ ∀ nnn, i ≠ .call nnn) → t.sp = s.sp) ∧
    ((∀ nnn, i ≠ .call nnn) → t.stack = s.stack) ∧
    ((i ≠ .cls ∧ ∀ x y n, i ≠ .drw x y n) → t.fb = s.fb) ∧
    (((∀ x, i ≠ .ldB x) ∧ ∀ x, i ≠ .storeRegs x) → KeepsMemory s t) ∧
    ((i ≠ .ret ∧ (∀ nnn, i ≠ .call nnn) ∧ (∀ x, i ≠ .skp x) ∧ ∀ x, i ≠ .sknp x) → t.fault = s.fault) ∧
    t.trace = s.trace ∧ t.host = s.host
end

