-- ==== Sys2Proof/Laws/Decode.lean ====
section
/-! SUPPORT. The nibbles and fields of an encoded word (R71, R72, R81), as numbers. -/

namespace Sys2Proof

@[simp] theorem regOf_nibbleOf (r : Reg) : regOf (nibbleOf r) = r := by
  apply Fin.ext
  simp [regOf, nibbleOf]

@[simp] theorem nibbleOf_regOf (d : BitVec 4) : nibbleOf (regOf d) = d := by
  simp [regOf, nibbleOf]

@[simp] theorem nibbleOf_zero : nibbleOf 0 = 0 := rfl

@[simp] theorem toNat_nibbleOf (r : Reg) : (nibbleOf r).toNat = r.val := by
  simp [nibbleOf]

/-- Appending fields, as numbers. -/
theorem toNat_append_eq {n m : Nat} (a : BitVec n) (b : BitVec m) :
    (a ++ b).toNat = a.toNat * 2 ^ m + b.toNat := by
  rw [BitVec.toNat_append, ← Nat.shiftLeft_add_eq_or_of_lt b.isLt, Nat.shiftLeft_eq]

theorem toNat_bigEndian (hi lo : Byte) : (bigEndian hi lo).toNat = hi.toNat * 256 + lo.toNat :=
  toNat_append_eq hi lo

theorem toNat_wordA (d : BitVec 4) (nnn : BitVec 12) : (wordA d nnn).toNat = d.toNat * 4096 + nnn.toNat :=
  toNat_append_eq d nnn

theorem toNat_wordXK (d : BitVec 4) (x : Reg) (kk : Byte) :
    (wordXK d x kk).toNat = d.toNat * 4096 + (x.val * 256 + kk.toNat) := by
  have h := toNat_append_eq d (nibbleOf x ++ kk : BitVec 12)
  have h2 := toNat_append_eq (nibbleOf x) kk
  rw [toNat_nibbleOf] at h2
  exact h.trans (congrArg (d.toNat * 4096 + ·) h2)

theorem toNat_wordXY (d : BitVec 4) (x y : Reg) (e : BitVec 4) :
    (wordXY d x y e).toNat = d.toNat * 4096 + (x.val * 256 + (y.val * 16 + e.toNat)) := by
  have h := toNat_append_eq d (nibbleOf x ++ (nibbleOf y ++ e : BitVec 8) : BitVec 12)
  have h2 := toNat_append_eq (nibbleOf x) (nibbleOf y ++ e : BitVec 8)
  have h3 := toNat_append_eq (nibbleOf y) e
  rw [toNat_nibbleOf] at h2 h3
  exact h.trans (congrArg (d.toNat * 4096 + ·) (h2.trans (congrArg (x.val * 256 + ·) h3)))

theorem toNat_nibble (w : Word) (k : Nat) : (nibble w k).toNat = w.toNat / 2 ^ (4 * k) % 16 := by
  simp [nibble, BitVec.extractLsb'_toNat, Nat.shiftRight_eq_div_pow]

theorem val_fieldX (w : Word) : (fieldX w).val = w.toNat / 256 % 16 := toNat_nibble w 2

theorem val_fieldY (w : Word) : (fieldY w).val = w.toNat / 16 % 16 := toNat_nibble w 1

theorem fieldN_eq (w : Word) : fieldN w = w.toNat % 16 := by
  simpa [fieldN] using toNat_nibble w 0

theorem toNat_fieldKK (w : Word) : (fieldKK w).toNat = w.toNat % 256 := by
  simp [fieldKK, BitVec.extractLsb'_toNat]

theorem toNat_fieldNNN (w : Word) : (fieldNNN w).toNat = w.toNat % 4096 := by
  simp [fieldNNN, BitVec.extractLsb'_toNat]

theorem toNat_highByte (w : Word) : (highByte w).toNat = w.toNat / 256 := by
  have := w.isLt
  simp [highByte, BitVec.extractLsb'_toNat, Nat.shiftRight_eq_div_pow]
  omega

theorem toNat_lowByte (w : Word) : (lowByte w).toNat = w.toNat % 256 := by
  simp [lowByte, BitVec.extractLsb'_toNat]

/-- The two bytes of a word, in the order they are stored, make the word (R54). -/
@[simp] theorem bigEndian_highByte_lowByte (w : Word) : bigEndian (highByte w) (lowByte w) = w := by
  apply BitVec.eq_of_toNat_eq
  rw [toNat_bigEndian, toNat_highByte, toNat_lowByte]
  omega

@[simp] theorem highByte_bigEndian (hi lo : Byte) : highByte (bigEndian hi lo) = hi := by
  apply BitVec.eq_of_toNat_eq
  have := lo.isLt
  rw [toNat_highByte, toNat_bigEndian]
  omega

@[simp] theorem lowByte_bigEndian (hi lo : Byte) : lowByte (bigEndian hi lo) = lo := by
  apply BitVec.eq_of_toNat_eq
  have := lo.isLt
  rw [toNat_lowByte, toNat_bigEndian]
  omega

/-! ### The fields of the three word forms -/

theorem nibble3_wordA (d : BitVec 4) (nnn : BitVec 12) : nibble (wordA d nnn) 3 = d := by
  apply BitVec.eq_of_toNat_eq
  have := nnn.isLt
  have := d.isLt
  rw [toNat_nibble, toNat_wordA]
  omega

theorem fieldNNN_wordA (d : BitVec 4) (nnn : BitVec 12) : fieldNNN (wordA d nnn) = nnn := by
  apply BitVec.eq_of_toNat_eq
  have := nnn.isLt
  rw [toNat_fieldNNN, toNat_wordA]
  omega

theorem nibble3_wordXK (d : BitVec 4) (x : Reg) (kk : Byte) : nibble (wordXK d x kk) 3 = d := by
  apply BitVec.eq_of_toNat_eq
  have := kk.isLt
  have := d.isLt
  rw [toNat_nibble, toNat_wordXK]
  omega

theorem fieldX_wordXK (d : BitVec 4) (x : Reg) (kk : Byte) : fieldX (wordXK d x kk) = x := by
  apply Fin.ext
  have := kk.isLt
  rw [val_fieldX, toNat_wordXK]
  omega

theorem fieldKK_wordXK (d : BitVec 4) (x : Reg) (kk : Byte) : fieldKK (wordXK d x kk) = kk := by
  apply BitVec.eq_of_toNat_eq
  have := kk.isLt
  rw [toNat_fieldKK, toNat_wordXK]
  omega

theorem nibble3_wordXY (d : BitVec 4) (x y : Reg) (e : BitVec 4) : nibble (wordXY d x y e) 3 = d := by
  apply BitVec.eq_of_toNat_eq
  have := e.isLt
  have := d.isLt
  rw [toNat_nibble, toNat_wordXY]
  omega

theorem fieldX_wordXY (d : BitVec 4) (x y : Reg) (e : BitVec 4) : fieldX (wordXY d x y e) = x := by
  apply Fin.ext
  have := e.isLt
  rw [val_fieldX, toNat_wordXY]
  omega

theorem fieldY_wordXY (d : BitVec 4) (x y : Reg) (e : BitVec 4) : fieldY (wordXY d x y e) = y := by
  apply Fin.ext
  have := e.isLt
  rw [val_fieldY, toNat_wordXY]
  omega

theorem fieldN_wordXY (d : BitVec 4) (x y : Reg) (e : BitVec 4) : fieldN (wordXY d x y e) = e.toNat := by
  have := e.isLt
  rw [fieldN_eq, toNat_wordXY]
  omega

/-- Every word is its first nibble and its address field. -/
theorem word_eq_wordA (w : Word) : w = wordA (nibble w 3) (fieldNNN w) := by
  apply BitVec.eq_of_toNat_eq
  have := w.isLt
  rw [toNat_wordA, toNat_nibble, toNat_fieldNNN]
  omega

/-- Every word is its first nibble, its X field and its immediate. -/
theorem word_eq_wordXK (w : Word) : w = wordXK (nibble w 3) (fieldX w) (fieldKK w) := by
  apply BitVec.eq_of_toNat_eq
  have := w.isLt
  rw [toNat_wordXK, toNat_nibble, val_fieldX, toNat_fieldKK]
  omega

/-- Every word is its four nibbles. -/
theorem word_eq_wordXY (w : Word) : w = wordXY (nibble w 3) (fieldX w) (fieldY w) (nibble w 0) := by
  apply BitVec.eq_of_toNat_eq
  have := w.isLt
  rw [toNat_wordXY, toNat_nibble, toNat_nibble, val_fieldX, val_fieldY]
  omega

/-! ### The masks of the table (R75): each keeps whole nibbles -/

theorem getLsbD_wordA (d : BitVec 4) (nnn : BitVec 12) (k : Nat) :
    (wordA d nnn).getLsbD k = if k < 12 then nnn.getLsbD k else d.getLsbD (k - 12) :=
  BitVec.getLsbD_append

theorem and_mask_F000 (w : Word) : w &&& 0xF000 = wordA (nibble w 3) 0 := by
  apply BitVec.eq_of_getLsbD_eq
  intro k hk
  rw [BitVec.getLsbD_and, getLsbD_wordA]
  interval_cases k <;> simp [nibble]

theorem and_mask_F0FF (w : Word) : w &&& 0xF0FF = wordXK (nibble w 3) 0 (fieldKK w) := by
  apply BitVec.eq_of_getLsbD_eq
  intro k hk
  rw [BitVec.getLsbD_and, wordXK, ← wordA, getLsbD_wordA, BitVec.getLsbD_append]
  interval_cases k <;> simp [nibble, nibbleOf, fieldKK]

theorem and_mask_F00F (w : Word) : w &&& 0xF00F = wordXY (nibble w 3) 0 0 (nibble w 0) := by
  apply BitVec.eq_of_getLsbD_eq
  intro k hk
  rw [BitVec.getLsbD_and, wordXY, ← wordA, getLsbD_wordA, BitVec.getLsbD_append, BitVec.getLsbD_append]
  interval_cases k <;> simp [nibble, nibbleOf]

theorem and_mask_FF0F (w : Word) : w &&& 0xFF0F = wordXY (nibble w 3) (fieldX w) 0 (nibble w 0) := by
  apply BitVec.eq_of_getLsbD_eq
  intro k hk
  rw [BitVec.getLsbD_and, wordXY, ← wordA, getLsbD_wordA, BitVec.getLsbD_append, BitVec.getLsbD_append]
  interval_cases k <;> simp [nibble, fieldX]

/-! ### Which words select a row (R75), by its mask: a row with mask F000, F0FF, F00F or FFFF tests d1 and, after it, nothing,
the low byte, the low nibble or the whole address field -/

theorem selects_F000 (w : Word) (m : String) (b : Word) (d : BitVec 4) (hb : b = wordA d 0) :
    (OpcodeRow.mk m b 0xF000).selects w = true ↔ (nibble w 3).toNat = d.toNat := by
  subst hb
  simp only [OpcodeRow.selects, beq_iff_eq, and_mask_F000, BitVec.toNat_inj]
  constructor
  · intro h
    simpa [nibble3_wordA] using congrArg (nibble · 3) h
  · rintro rfl; rfl

theorem selects_F0FF (w : Word) (m : String) (b : Word) (d : BitVec 4) (kk : Byte) (hb : b = wordXK d 0 kk) :
    (OpcodeRow.mk m b 0xF0FF).selects w = true ↔
      (nibble w 3).toNat = d.toNat ∧ (fieldKK w).toNat = kk.toNat := by
  subst hb
  simp only [OpcodeRow.selects, beq_iff_eq, and_mask_F0FF, BitVec.toNat_inj]
  constructor
  · intro h
    exact ⟨by simpa [nibble3_wordXK] using congrArg (nibble · 3) h,
      by simpa [fieldKK_wordXK] using congrArg fieldKK h⟩
  · rintro ⟨rfl, rfl⟩; rfl

theorem selects_F00F (w : Word) (m : String) (b : Word) (d e : BitVec 4) (hb : b = wordXY d 0 0 e) :
    (OpcodeRow.mk m b 0xF00F).selects w = true ↔ (nibble w 3).toNat = d.toNat ∧ fieldN w = e.toNat := by
  subst hb
  simp only [OpcodeRow.selects, beq_iff_eq, and_mask_F00F, fieldN, BitVec.toNat_inj]
  constructor
  · intro h
    have h2 := congrArg fieldN h
    rw [fieldN_wordXY, fieldN_wordXY, BitVec.toNat_inj] at h2
    exact ⟨by simpa [nibble3_wordXY] using congrArg (nibble · 3) h, h2⟩
  · rintro ⟨rfl, rfl⟩; rfl

theorem selects_FFFF (w : Word) (m : String) (d : BitVec 4) (e : BitVec 12) (b : Word) (hb : b = wordA d e) :
    (OpcodeRow.mk m b 0xFFFF).selects w = true ↔
      (nibble w 3).toNat = d.toNat ∧ (fieldNNN w).toNat = e.toNat := by
  subst hb
  have hw : w &&& 0xFFFF = w := BitVec.and_allOnes
  simp only [OpcodeRow.selects, beq_iff_eq, BitVec.toNat_inj, hw]
  constructor
  · intro h
    rw [h]
    exact ⟨nibble3_wordA _ _, fieldNNN_wordA _ _⟩
  · rintro ⟨rfl, rfl⟩
    exact word_eq_wordA w

end Sys2Proof
end

