-- ==== Sys2Proof/Laws/State.lean ====
section
/-! SUPPORT. What each named update of State does to each field: one lemma per field per update, by rfl. -/

namespace Sys2Proof.Machine

/-! ### setReg -/

@[simp] theorem setReg_v (s : State) (r : Reg) (b : Byte) : (s.setReg r b).v = s.v.set r.val b r.isLt := rfl
@[simp] theorem setReg_i (s : State) (r : Reg) (b : Byte) : (s.setReg r b).i = s.i := rfl
@[simp] theorem setReg_pc (s : State) (r : Reg) (b : Byte) : (s.setReg r b).pc = s.pc := rfl
@[simp] theorem setReg_dt (s : State) (r : Reg) (b : Byte) : (s.setReg r b).dt = s.dt := rfl
@[simp] theorem setReg_st (s : State) (r : Reg) (b : Byte) : (s.setReg r b).st = s.st := rfl
@[simp] theorem setReg_stack (s : State) (r : Reg) (b : Byte) : (s.setReg r b).stack = s.stack := rfl
@[simp] theorem setReg_sp (s : State) (r : Reg) (b : Byte) : (s.setReg r b).sp = s.sp := rfl
@[simp] theorem setReg_fb (s : State) (r : Reg) (b : Byte) : (s.setReg r b).fb = s.fb := rfl
@[simp] theorem setReg_mem (s : State) (r : Reg) (b : Byte) : (s.setReg r b).mem = s.mem := rfl
@[simp] theorem setReg_fault (s : State) (r : Reg) (b : Byte) : (s.setReg r b).fault = s.fault := rfl
@[simp] theorem setReg_trace (s : State) (r : Reg) (b : Byte) : (s.setReg r b).trace = s.trace := rfl
@[simp] theorem setReg_host (s : State) (r : Reg) (b : Byte) : (s.setReg r b).host = s.host := rfl

/-! ### memWrite -/

@[simp] theorem memWrite_v (s : State) (a : Nat) (u : Byte) : (s.memWrite a u).v = s.v := rfl
@[simp] theorem memWrite_i (s : State) (a : Nat) (u : Byte) : (s.memWrite a u).i = s.i := rfl
@[simp] theorem memWrite_pc (s : State) (a : Nat) (u : Byte) : (s.memWrite a u).pc = s.pc := rfl
@[simp] theorem memWrite_dt (s : State) (a : Nat) (u : Byte) : (s.memWrite a u).dt = s.dt := rfl
@[simp] theorem memWrite_st (s : State) (a : Nat) (u : Byte) : (s.memWrite a u).st = s.st := rfl
@[simp] theorem memWrite_stack (s : State) (a : Nat) (u : Byte) : (s.memWrite a u).stack = s.stack := rfl
@[simp] theorem memWrite_sp (s : State) (a : Nat) (u : Byte) : (s.memWrite a u).sp = s.sp := rfl
@[simp] theorem memWrite_fb (s : State) (a : Nat) (u : Byte) : (s.memWrite a u).fb = s.fb := rfl
@[simp] theorem memWrite_mem (s : State) (a : Nat) (u : Byte) : (s.memWrite a u).mem = s.mem.store (a % Config.memSize) u := rfl
@[simp] theorem memWrite_fault (s : State) (a : Nat) (u : Byte) : (s.memWrite a u).fault = s.fault := rfl
@[simp] theorem memWrite_trace (s : State) (a : Nat) (u : Byte) : (s.memWrite a u).trace = s.trace := rfl
@[simp] theorem memWrite_host (s : State) (a : Nat) (u : Byte) : (s.memWrite a u).host = s.host := rfl

/-! ### jump -/

@[simp] theorem jump_v (s : State) (a : Word) : (s.jump a).v = s.v := rfl
@[simp] theorem jump_i (s : State) (a : Word) : (s.jump a).i = s.i := rfl
@[simp] theorem jump_pc (s : State) (a : Word) : (s.jump a).pc = a := rfl
@[simp] theorem jump_dt (s : State) (a : Word) : (s.jump a).dt = s.dt := rfl
@[simp] theorem jump_st (s : State) (a : Word) : (s.jump a).st = s.st := rfl
@[simp] theorem jump_stack (s : State) (a : Word) : (s.jump a).stack = s.stack := rfl
@[simp] theorem jump_sp (s : State) (a : Word) : (s.jump a).sp = s.sp := rfl
@[simp] theorem jump_fb (s : State) (a : Word) : (s.jump a).fb = s.fb := rfl
@[simp] theorem jump_mem (s : State) (a : Word) : (s.jump a).mem = s.mem := rfl
@[simp] theorem jump_fault (s : State) (a : Word) : (s.jump a).fault = s.fault := rfl
@[simp] theorem jump_trace (s : State) (a : Word) : (s.jump a).trace = s.trace := rfl
@[simp] theorem jump_host (s : State) (a : Word) : (s.jump a).host = s.host := rfl

/-! ### advancePc -/

@[simp] theorem advancePc_v (s : State) : (s.advancePc).v = s.v := rfl
@[simp] theorem advancePc_i (s : State) : (s.advancePc).i = s.i := rfl
@[simp] theorem advancePc_pc (s : State) : (s.advancePc).pc = s.pc + 2 := rfl
@[simp] theorem advancePc_dt (s : State) : (s.advancePc).dt = s.dt := rfl
@[simp] theorem advancePc_st (s : State) : (s.advancePc).st = s.st := rfl
@[simp] theorem advancePc_stack (s : State) : (s.advancePc).stack = s.stack := rfl
@[simp] theorem advancePc_sp (s : State) : (s.advancePc).sp = s.sp := rfl
@[simp] theorem advancePc_fb (s : State) : (s.advancePc).fb = s.fb := rfl
@[simp] theorem advancePc_mem (s : State) : (s.advancePc).mem = s.mem := rfl
@[simp] theorem advancePc_fault (s : State) : (s.advancePc).fault = s.fault := rfl
@[simp] theorem advancePc_trace (s : State) : (s.advancePc).trace = s.trace := rfl
@[simp] theorem advancePc_host (s : State) : (s.advancePc).host = s.host := rfl

/-! ### skipIf -/

@[simp] theorem skipIf_v (s : State) (c : Bool) : (s.skipIf c).v = s.v := rfl
@[simp] theorem skipIf_i (s : State) (c : Bool) : (s.skipIf c).i = s.i := rfl
@[simp] theorem skipIf_pc (s : State) (c : Bool) : (s.skipIf c).pc = if c then s.pc + 2 else s.pc := rfl
@[simp] theorem skipIf_dt (s : State) (c : Bool) : (s.skipIf c).dt = s.dt := rfl
@[simp] theorem skipIf_st (s : State) (c : Bool) : (s.skipIf c).st = s.st := rfl
@[simp] theorem skipIf_stack (s : State) (c : Bool) : (s.skipIf c).stack = s.stack := rfl
@[simp] theorem skipIf_sp (s : State) (c : Bool) : (s.skipIf c).sp = s.sp := rfl
@[simp] theorem skipIf_fb (s : State) (c : Bool) : (s.skipIf c).fb = s.fb := rfl
@[simp] theorem skipIf_mem (s : State) (c : Bool) : (s.skipIf c).mem = s.mem := rfl
@[simp] theorem skipIf_fault (s : State) (c : Bool) : (s.skipIf c).fault = s.fault := rfl
@[simp] theorem skipIf_trace (s : State) (c : Bool) : (s.skipIf c).trace = s.trace := rfl
@[simp] theorem skipIf_host (s : State) (c : Bool) : (s.skipIf c).host = s.host := rfl

/-! ### timerAdvance -/

@[simp] theorem timerAdvance_v (s : State) : (timerAdvance s).v = s.v := rfl
@[simp] theorem timerAdvance_i (s : State) : (timerAdvance s).i = s.i := rfl
@[simp] theorem timerAdvance_pc (s : State) : (timerAdvance s).pc = s.pc := rfl
@[simp] theorem timerAdvance_dt (s : State) : (timerAdvance s).dt = if s.dt = 0 then 0 else s.dt - 1 := rfl
@[simp] theorem timerAdvance_st (s : State) : (timerAdvance s).st = if s.st = 0 then 0 else s.st - 1 := rfl
@[simp] theorem timerAdvance_stack (s : State) : (timerAdvance s).stack = s.stack := rfl
@[simp] theorem timerAdvance_sp (s : State) : (timerAdvance s).sp = s.sp := rfl
@[simp] theorem timerAdvance_fb (s : State) : (timerAdvance s).fb = s.fb := rfl
@[simp] theorem timerAdvance_mem (s : State) : (timerAdvance s).mem = s.mem := rfl
@[simp] theorem timerAdvance_fault (s : State) : (timerAdvance s).fault = s.fault := rfl
@[simp] theorem timerAdvance_trace (s : State) : (timerAdvance s).trace = if s.st = 1 then s.trace ++ [.beep] else s.trace := rfl
@[simp] theorem timerAdvance_host (s : State) : (timerAdvance s).host = s.host := rfl

/-! ### dropCall -/

@[simp] theorem dropCall_v (s : State) : (dropCall s).v = s.v := rfl
@[simp] theorem dropCall_i (s : State) : (dropCall s).i = s.i := rfl
@[simp] theorem dropCall_pc (s : State) : (dropCall s).pc = s.pc := rfl
@[simp] theorem dropCall_dt (s : State) : (dropCall s).dt = s.dt := rfl
@[simp] theorem dropCall_st (s : State) : (dropCall s).st = s.st := rfl
@[simp] theorem dropCall_stack (s : State) : (dropCall s).stack = s.stack := rfl
@[simp] theorem dropCall_sp (s : State) : (dropCall s).sp = s.sp := rfl
@[simp] theorem dropCall_fb (s : State) : (dropCall s).fb = s.fb := rfl
@[simp] theorem dropCall_mem (s : State) : (dropCall s).mem = s.mem := rfl
@[simp] theorem dropCall_fault (s : State) : (dropCall s).fault = s.fault := rfl
@[simp] theorem dropCall_trace (s : State) : (dropCall s).trace = s.trace := rfl
@[simp] theorem dropCall_host (s : State) : (dropCall s).host =
    { s.host with calls := s.host.calls.tail, draws := s.host.draws + 1 } := rfl

/-! ### bringInputs -/

@[simp] theorem bringInputs_v (s : State) (k : Keypad) (b : Byte) : (bringInputs k b s).v = s.v := rfl
@[simp] theorem bringInputs_i (s : State) (k : Keypad) (b : Byte) : (bringInputs k b s).i = s.i := rfl
@[simp] theorem bringInputs_pc (s : State) (k : Keypad) (b : Byte) : (bringInputs k b s).pc = s.pc := rfl
@[simp] theorem bringInputs_dt (s : State) (k : Keypad) (b : Byte) : (bringInputs k b s).dt = s.dt := rfl
@[simp] theorem bringInputs_st (s : State) (k : Keypad) (b : Byte) : (bringInputs k b s).st = s.st := rfl
@[simp] theorem bringInputs_stack (s : State) (k : Keypad) (b : Byte) : (bringInputs k b s).stack = s.stack := rfl
@[simp] theorem bringInputs_sp (s : State) (k : Keypad) (b : Byte) : (bringInputs k b s).sp = s.sp := rfl
@[simp] theorem bringInputs_fb (s : State) (k : Keypad) (b : Byte) : (bringInputs k b s).fb = s.fb := rfl
@[simp] theorem bringInputs_mem (s : State) (k : Keypad) (b : Byte) : (bringInputs k b s).mem = s.mem := rfl
@[simp] theorem bringInputs_fault (s : State) (k : Keypad) (b : Byte) : (bringInputs k b s).fault = s.fault := rfl
@[simp] theorem bringInputs_trace (s : State) (k : Keypad) (b : Byte) : (bringInputs k b s).trace = s.trace := rfl
@[simp] theorem bringInputs_host (s : State) (k : Keypad) (b : Byte) : (bringInputs k b s).host = { s.host with keypad := k, rnd := b } := rfl

/-! ### Derived reads: what depends on one field alone -/

theorem reg_eq_of_v_eq {s t : State} (h : t.v = s.v) (r : Reg) : t.reg r = s.reg r := by
  simp [State.reg, h]

theorem memRead_eq_of_mem_eq {s t : State} (h : t.mem = s.mem) (a : Nat) : t.memRead a = s.memRead a := by
  simp [State.memRead, h]

theorem wordAt_eq_of_mem_eq {s t : State} (h : t.mem = s.mem) (a : Word) : t.wordAt a = s.wordAt a := by
  simp [State.wordAt, memRead_eq_of_mem_eq h]

@[simp] theorem memWrite_reg (s : State) (a : Nat) (u : Byte) (q : Reg) : (s.memWrite a u).reg q = s.reg q := rfl
@[simp] theorem jump_reg (s : State) (a : Word) (q : Reg) : (s.jump a).reg q = s.reg q := rfl
@[simp] theorem advancePc_reg (s : State) (q : Reg) : (s.advancePc).reg q = s.reg q := rfl
@[simp] theorem skipIf_reg (s : State) (c : Bool) (q : Reg) : (s.skipIf c).reg q = s.reg q := rfl
@[simp] theorem timerAdvance_reg (s : State) (q : Reg) : (timerAdvance s).reg q = s.reg q := rfl
@[simp] theorem dropCall_reg (s : State) (q : Reg) : (dropCall s).reg q = s.reg q := rfl
@[simp] theorem bringInputs_reg (s : State) (k : Keypad) (b : Byte) (q : Reg) : (bringInputs k b s).reg q = s.reg q := rfl
@[simp] theorem setReg_memRead (s : State) (r : Reg) (b : Byte) (adr : Nat) : (s.setReg r b).memRead adr = s.memRead adr := rfl
@[simp] theorem jump_memRead (s : State) (a : Word) (adr : Nat) : (s.jump a).memRead adr = s.memRead adr := rfl
@[simp] theorem advancePc_memRead (s : State) (adr : Nat) : (s.advancePc).memRead adr = s.memRead adr := rfl
@[simp] theorem skipIf_memRead (s : State) (c : Bool) (adr : Nat) : (s.skipIf c).memRead adr = s.memRead adr := rfl
@[simp] theorem timerAdvance_memRead (s : State) (adr : Nat) : (timerAdvance s).memRead adr = s.memRead adr := rfl
@[simp] theorem dropCall_memRead (s : State) (adr : Nat) : (dropCall s).memRead adr = s.memRead adr := rfl
@[simp] theorem bringInputs_memRead (s : State) (k : Keypad) (b : Byte) (adr : Nat) : (bringInputs k b s).memRead adr = s.memRead adr := rfl
@[simp] theorem setReg_wordAt (s : State) (r : Reg) (b : Byte) (adr : Word) : (s.setReg r b).wordAt adr = s.wordAt adr := rfl
@[simp] theorem jump_wordAt (s : State) (a : Word) (adr : Word) : (s.jump a).wordAt adr = s.wordAt adr := rfl
@[simp] theorem advancePc_wordAt (s : State) (adr : Word) : (s.advancePc).wordAt adr = s.wordAt adr := rfl
@[simp] theorem skipIf_wordAt (s : State) (c : Bool) (adr : Word) : (s.skipIf c).wordAt adr = s.wordAt adr := rfl
@[simp] theorem timerAdvance_wordAt (s : State) (adr : Word) : (timerAdvance s).wordAt adr = s.wordAt adr := rfl
@[simp] theorem dropCall_wordAt (s : State) (adr : Word) : (dropCall s).wordAt adr = s.wordAt adr := rfl
@[simp] theorem bringInputs_wordAt (s : State) (k : Keypad) (b : Byte) (adr : Word) : (bringInputs k b s).wordAt adr = s.wordAt adr := rfl

end Sys2Proof.Machine
end

