-- ==== Sys2Proof/Laws/Registers.lean ====
section
/-! SUPPORT. The register file: a read after a write, and the two writes of a flag and a result. -/

namespace Sys2Proof.Machine

theorem reg_setReg (s : State) (r q : Reg) (b : Byte) : (s.setReg r b).reg q = if q = r then b else s.reg q := by
  simp only [State.reg, State.setReg, Vector.get_eq_getElem, Vector.getElem_set]
  by_cases h : r = q
  · subst h; simp
  · simp [Fin.val_ne_of_ne h, Ne.symm h]

@[simp] theorem reg_setReg_same (s : State) (r : Reg) (b : Byte) : (s.setReg r b).reg r = b := by
  simp [reg_setReg]

@[simp] theorem reg_setReg_other (s : State) {r q : Reg} (b : Byte) (h : q ≠ r) : (s.setReg r b).reg q = s.reg q := by
  simp [reg_setReg, h]

/-- Two register files with the same registers are the same. -/
theorem v_ext {s t : State} (h : ∀ r, t.reg r = s.reg r) : t.v = s.v := by
  apply Vector.ext
  intro k hk
  simpa [State.reg, Vector.get_eq_getElem] using h ⟨k, hk⟩

/-- A register write changes the register file alone. -/
theorem setReg_eq (s : State) (r : Reg) (b : Byte) : s.setReg r b = { s with v := (s.setReg r b).v } := rfl

/-! ### The result, then the flag (R152) -/

theorem resultThenFlag_eq (m : VfClash) (d : Reg) (a f : Byte) (s : State) :
    resultThenFlag m d a f s = { s with v := (resultThenFlag m d a f s).v } := by
  unfold resultThenFlag
  cases m
  · rfl
  · dsimp only; split <;> rfl

/-- In the text order the flag register ends with the flag, and the destination, if another, with the result. -/
theorem reg_resultThenFlag_textOrder (d q : Reg) (a f : Byte) (s : State) :
    (resultThenFlag .textOrder d a f s).reg q = if q = vf then f else if q = d then a else s.reg q := by
  simp only [resultThenFlag, reg_setReg]

/-! ### The flag, then the shift (R152) -/

theorem flagThenShift_eq (m : VfClash) (x : Reg) (f : Byte) (g : Byte → Byte) (s : State) :
    flagThenShift m x f g s = { s with v := (flagThenShift m x f g s).v } := by
  unfold flagThenShift
  cases m
  · rfl
  · dsimp only; split <;> rfl

/-- In the text order the destination is shifted last; a clash shifts the flag. -/
theorem reg_flagThenShift_textOrder (x q : Reg) (f : Byte) (g : Byte → Byte) (s : State) :
    (flagThenShift .textOrder x f g s).reg q =
      if q = x then (if x = vf then g f else g (s.reg x)) else if q = vf then f else s.reg q := by
  simp only [flagThenShift, reg_setReg]
  split <;> split <;> simp_all

/-! ### The loop of `LD Vx,[I]` (R165) -/

theorem loadLoop_eq (fuel k : Nat) (s : State) : loadLoop fuel k s = { s with v := (loadLoop fuel k s).v } := by
  induction fuel generalizing k s with
  | zero => rfl
  | succ n ih => rw [loadLoop, ih]; rfl

theorem regIndex_of_lt {k : Nat} (h : k < 16) : regIndex k = ⟨k, h⟩ := by
  simp [regIndex, Fin.ofNat, Nat.mod_eq_of_lt h]

/-- The loop loads registers `k` to `k + fuel - 1`, register `j` from `I + j`, and no other. -/
theorem reg_loadLoop (fuel k : Nat) (s : State) (h : k + fuel ≤ 16) (q : Reg) :
    (loadLoop fuel k s).reg q = if k ≤ q.val ∧ q.val < k + fuel then s.memRead (memAddr s.i q.val) else s.reg q := by
  induction fuel generalizing k s with
  | zero => simp [loadLoop]
  | succ n ih =>
    have hk : k < 16 := by omega
    rw [loadLoop, ih _ _ (by omega), regIndex_of_lt hk]
    simp only [setReg_memRead, setReg_i, reg_setReg]
    by_cases hq : q.val = k
    · have : q = ⟨k, hk⟩ := Fin.ext hq
      subst this
      simp
    · have hne : q ≠ ⟨k, hk⟩ := fun e => hq (by simp [e])
      rw [if_neg hne]
      by_cases h1 : k + 1 ≤ q.val ∧ q.val < k + 1 + n
      · rw [if_pos h1, if_pos (by omega)]
      · rw [if_neg h1, if_neg (by omega)]

end Sys2Proof.Machine
end

