-- ==== Sys2Proof/Laws/Display.lean ====
section
/-! SUPPORT. The framebuffer: a pixel after a write, and what a blit does to every pixel (R170, R171, R176). -/

namespace Sys2Proof.Machine

/-- Pixels are addressed modulo the height and the width (R33). -/
theorem pixel_mod (fb : Framebuffer) (py px : Nat) :
    fb.pixel (py % Config.fbHeight) (px % Config.fbWidth) = fb.pixel py px := by
  simp [Framebuffer.pixel]

/-- A pixel after a write of a pixel. -/
theorem pixel_setPixel (fb : Framebuffer) (py px qy qx : Nat) (b : Bool) :
    (fb.setPixel py px b).pixel qy qx =
      if qy % Config.fbHeight = py % Config.fbHeight ∧ qx % Config.fbWidth = px % Config.fbWidth then b
      else fb.pixel qy qx := by
  simp only [Framebuffer.setPixel, Framebuffer.pixel, Vector.get_eq_getElem, Vector.getElem_set]
  by_cases hy : py % Config.fbHeight = qy % Config.fbHeight
  · simp only [hy, if_true, Vector.getElem_set]
    by_cases hx : px % Config.fbWidth = qx % Config.fbWidth
    · simp [hx]
    · simp [hx, Ne.symm hx]
  · simp [hy, Ne.symm hy]

@[simp] theorem pixel_clear (py px : Nat) : Framebuffer.clear.pixel py px = false := by
  simp [Framebuffer.clear, Framebuffer.pixel, Vector.get_eq_getElem]

/-- Two framebuffers with the same pixels are the same. -/
theorem fb_ext {f g : Framebuffer}
    (h : ∀ py px, py < Config.fbHeight → px < Config.fbWidth → f.pixel py px = g.pixel py px) : f = g := by
  apply Vector.ext
  intro py hy
  apply Vector.ext
  intro px hx
  have := h py px hy hx
  simpa [Framebuffer.pixel, Vector.get_eq_getElem, Nat.mod_eq_of_lt hy, Nat.mod_eq_of_lt hx] using this

/-- The columns `c .. c + fuel - 1` of one row flip exactly the pixels under their 1 bits, and collide exactly where such a
pixel was 1 before. -/
theorem blitColumns_spec (x py : Nat) (row : Byte) (fuel c : Nat) (acc : Framebuffer × Bool) (hf : c + fuel ≤ 8) :
    (∀ j, c ≤ j → j < c + fuel →
      (blitColumns x py row fuel c acc).1.pixel py (x + j) = (acc.1.pixel py (x + j) ^^ rowBit row j)) ∧
    (∀ qy qx, (∀ j, c ≤ j → j < c + fuel →
        ¬(qy % Config.fbHeight = py % Config.fbHeight ∧ qx % Config.fbWidth = (x + j) % Config.fbWidth)) →
      (blitColumns x py row fuel c acc).1.pixel qy qx = acc.1.pixel qy qx) ∧
    ((blitColumns x py row fuel c acc).2 = true ↔
      acc.2 = true ∨ ∃ j, c ≤ j ∧ j < c + fuel ∧ rowBit row j = true ∧ acc.1.pixel py (x + j) = true) := by
  induction fuel generalizing c acc with
  | zero =>
    refine ⟨fun j h1 h2 => absurd h2 (by omega), fun _ _ _ => rfl, ?_⟩
    constructor
    · exact Or.inl
    · rintro (h | ⟨j, h1, h2, -⟩)
      · exact h
      · omega
  | succ n ih =>
    obtain ⟨h1, h2, h3⟩ := ih (c + 1) (blitPixel py (x + c) (rowBit row c) acc) (by omega)
    have hother : ∀ j, c + 1 ≤ j → j < c + 1 + n →
        (blitPixel py (x + c) (rowBit row c) acc).1.pixel py (x + j) = acc.1.pixel py (x + j) := by
      intro j hj1 hj2
      simp only [blitPixel, pixel_setPixel]
      rw [if_neg]
      simp only [Config.fbWidth]
      omega
    rw [blitColumns]
    refine ⟨fun j hj1 hj2 => ?_, fun qy qx hq => ?_, ?_⟩
    · by_cases hjc : j = c
      · subst hjc
        rw [h2]
        · simp [blitPixel, pixel_setPixel]
        · intro k hk1 hk2
          simp only [Config.fbWidth]
          omega
      · rw [h1 j (by omega) (by omega), hother j (by omega) (by omega)]
    · rw [h2 qy qx fun j hj1 hj2 => hq j (by omega) (by omega)]
      simp only [blitPixel, pixel_setPixel]
      rw [if_neg (hq c (by omega) (by omega))]
    · rw [h3]
      constructor
      · rintro (h | ⟨j, hj1, hj2, hb, hp⟩)
        · simp only [blitPixel, Bool.or_eq_true, Bool.and_eq_true] at h
          rcases h with h | h
          · exact Or.inl h
          · exact Or.inr ⟨c, by omega, by omega, h.1, h.2⟩
        · exact Or.inr ⟨j, by omega, by omega, hb, by rwa [hother j (by omega) (by omega)] at hp⟩
      · rintro (h | ⟨j, hj1, hj2, hb, hp⟩)
        · exact Or.inl (by simp [blitPixel, h])
        · by_cases hjc : j = c
          · subst hjc
            exact Or.inl (by simp [blitPixel, hb, hp])
          · exact Or.inr ⟨j, by omega, by omega, hb, by rwa [hother j (by omega) (by omega)]⟩

/-- A blit of at most 32 rows flips exactly the pixels under its 1 bits, each once (R176), and collides exactly where such a
pixel was 1 before (R171). -/
theorem blitRows_spec (x y : Nat) (rows : List Byte) (acc : Framebuffer × Bool) (hl : rows.length ≤ 32) :
    (∀ r (hr : r < rows.length) j, j < 8 →
      (blitRows x y rows acc).1.pixel (y + r) (x + j) = (acc.1.pixel (y + r) (x + j) ^^ rowBit rows[r] j)) ∧
    (∀ qy qx, (∀ r, r < rows.length → ∀ j, j < 8 →
        ¬(qy % Config.fbHeight = (y + r) % Config.fbHeight ∧ qx % Config.fbWidth = (x + j) % Config.fbWidth)) →
      (blitRows x y rows acc).1.pixel qy qx = acc.1.pixel qy qx) ∧
    ((blitRows x y rows acc).2 = true ↔
      acc.2 = true ∨ ∃ r, ∃ hr : r < rows.length, ∃ j, j < 8 ∧ rowBit rows[r] j = true ∧
        acc.1.pixel (y + r) (x + j) = true) := by
  induction rows generalizing y acc with
  | nil =>
    refine ⟨fun r hr => absurd hr (by simp), fun _ _ _ => rfl, ?_⟩
    constructor
    · exact Or.inl
    · rintro (h | ⟨r, hr, -⟩)
      · exact h
      · simp at hr
  | cons row rows ih =>
    simp only [List.length_cons] at hl
    obtain ⟨c1, c2, c3⟩ := blitColumns_spec x y row Config.spriteWidth 0 acc (by decide)
    obtain ⟨h1, h2, h3⟩ := ih (y + 1) (blitColumns x y row Config.spriteWidth 0 acc) (by omega)
    simp only [Nat.zero_le, true_implies, Nat.zero_add, true_and] at c1 c2 c3
    have hother : ∀ r, r < rows.length → ∀ j,
        (blitColumns x y row Config.spriteWidth 0 acc).1.pixel (y + 1 + r) (x + j) = acc.1.pixel (y + 1 + r) (x + j) := by
      intro r hr j
      apply c2
      intro k hk
      simp only [Config.fbHeight]
      omega
    rw [blitRows]
    refine ⟨fun r hr j hj => ?_, fun qy qx hq => ?_, ?_⟩
    · cases r with
      | zero =>
        rw [h2]
        · simpa using c1 j hj
        · intro r hr' k hk
          simp only [Config.fbHeight]
          omega
      | succ r =>
        have hr' : r < rows.length := by simpa using hr
        have e : y + (r + 1) = y + 1 + r := by omega
        rw [e, h1 r hr' j hj, hother r hr' j]
        simp
    · rw [h2 qy qx fun r hr j hj => ?_, c2 qy qx fun j hj => ?_]
      · simpa using hq 0 (by simp) j hj
      · have := hq (r + 1) (by simpa using hr) j hj
        rwa [Nat.add_comm r 1, ← Nat.add_assoc] at this
    · rw [h3, c3]
      constructor
      · rintro ((h | ⟨j, hj, hb, hp⟩) | ⟨r, hr, j, hj, hb, hp⟩)
        · exact Or.inl h
        · exact Or.inr ⟨0, by simp, j, hj, by simpa using hb, by simpa using hp⟩
        · refine Or.inr ⟨r + 1, by simpa using hr, j, hj, by simpa using hb, ?_⟩
          rw [hother r hr j] at hp
          rwa [Nat.add_comm r 1, ← Nat.add_assoc]
      · rintro (h | ⟨r, hr, j, hj, hb, hp⟩)
        · exact Or.inl (Or.inl h)
        · cases r with
          | zero => exact Or.inl (Or.inr ⟨j, hj, by simpa using hb, by simpa using hp⟩)
          | succ r =>
            have hr' : r < rows.length := by simpa using hr
            refine Or.inr ⟨r, hr', j, hj, by simpa using hb, ?_⟩
            rw [hother r hr' j]
            rwa [Nat.add_comm r 1, ← Nat.add_assoc] at hp

theorem collisionFlag_eq_one (c : Bool) : collisionFlag c = 1 ↔ c = true := by cases c <;> simp [collisionFlag]

theorem collisionFlag_eq_zero (c : Bool) : collisionFlag c = 0 ↔ c = false := by cases c <;> simp [collisionFlag]

theorem length_spriteRows (s : State) (n : Nat) : (s.spriteRows n).length = n := by simp [State.spriteRows]

theorem getElem_spriteRows (s : State) (n r : Nat) (h : r < (s.spriteRows n).length) :
    (s.spriteRows n)[r] = s.memRead (memAddr s.i r) := by simp [State.spriteRows]

end Sys2Proof.Machine
end

