-- ==== Sys2Proof/Laws/Memory.lean ====
section
/-! SUPPORT. Memory: a read after a write (R57), that every operation keeps the canonical form, and that canonical memories
with the same bytes are the same list. -/

namespace Sys2Proof.Machine

@[simp] theorem lookup_nil (a : Nat) : Memory.lookup [] a = unlistedByte a := rfl

theorem lookup_cons (c : Host.Cell) (m : Memory) (a : Nat) :
    Memory.lookup (c :: m) a = if a = c.1 then c.2 else Memory.lookup m a := rfl

theorem lookup_of_unlisted (m : Memory) (a : Nat) (h : ∀ c ∈ m, c.1 ≠ a) : m.lookup a = unlistedByte a := by
  induction m with
  | nil => rfl
  | cons c m ih =>
    rw [lookup_cons, if_neg (Ne.symm (h c (by simp))), ih fun d hd => h d (by simp [hd])]

theorem lookup_of_mem (m : Memory) (hp : m.Pairwise fun c d => c.1 < d.1) {c : Host.Cell} (hc : c ∈ m) :
    m.lookup c.1 = c.2 := by
  induction m with
  | nil => cases hc
  | cons d m ih =>
    rw [List.pairwise_cons] at hp
    rw [lookup_cons]
    rcases List.mem_cons.mp hc with rfl | hc
    · simp
    · rw [if_neg (Nat.ne_of_gt (hp.1 c hc)), ih hp.2 hc]

theorem mem_remove (a : Nat) (m : Memory) (c : Host.Cell) : c ∈ m.remove a ↔ c ∈ m ∧ c.1 ≠ a := by
  simp [Memory.remove]

theorem lookup_remove (m : Memory) (a b : Nat) :
    (m.remove a).lookup b = if b = a then unlistedByte a else m.lookup b := by
  by_cases h : b = a
  · subst h
    rw [if_pos rfl, lookup_of_unlisted _ _ fun c hc => ((mem_remove _ _ _).mp hc).2]
  · rw [if_neg h]
    induction m with
    | nil => rfl
    | cons c m ih =>
      simp only [Memory.remove, List.filter_cons] at ih ⊢
      by_cases hc : c.1 = a
      · simp only [hc, bne_self_eq_false, Bool.false_eq_true, if_false]
        rw [ih, lookup_cons, if_neg (by omega)]
      · simp only [bne_iff_ne.mpr hc, if_true]
        rw [lookup_cons, lookup_cons, ih]

theorem mem_insertCell (a : Nat) (u : Byte) (m : Memory) (c : Host.Cell) :
    c ∈ m.insertCell a u ↔ c = (a, u) ∨ c ∈ m := by
  induction m with
  | nil => simp [Memory.insertCell]
  | cons d m ih =>
    simp only [Memory.insertCell]
    split
    · simp
    · simp only [List.mem_cons, ih]; tauto

theorem lookup_insertCell (m : Memory) (a b : Nat) (u : Byte) (h : ∀ c ∈ m, c.1 ≠ a) :
    (m.insertCell a u).lookup b = if b = a then u else m.lookup b := by
  induction m with
  | nil => simp [Memory.insertCell, lookup_cons]
  | cons d m ih =>
    simp only [Memory.insertCell]
    split
    · rw [lookup_cons]
    · rw [lookup_cons, lookup_cons, ih fun c hc => h c (by simp [hc])]
      have := h d (by simp)
      split <;> split <;> simp_all

/-- A read after a write gives the byte written, and every other address reads as before (R57). -/
theorem lookup_store (m : Memory) (a b : Nat) (u : Byte) :
    (m.store a u).lookup b = if b = a then u else m.lookup b := by
  unfold Memory.store
  split
  · rename_i h
    rw [lookup_remove]; split <;> simp_all
  · rw [lookup_insertCell _ _ _ _ fun c hc => ((mem_remove _ _ _).mp hc).2, lookup_remove]
    split <;> simp_all

theorem wf_iff (m : Memory) :
    m.wf = true ↔ (∀ c ∈ m, c.1 < Config.memSize ∧ c.2 ≠ unlistedByte c.1) ∧ m.Pairwise fun c d => c.1 < d.1 := by
  simp [Memory.wf, List.all_eq_true]

theorem pairwise_insertCell (a : Nat) (u : Byte) (m : Memory) (hp : m.Pairwise fun c d => c.1 < d.1)
    (h : ∀ c ∈ m, c.1 ≠ a) : (m.insertCell a u).Pairwise fun c d => c.1 < d.1 := by
  induction m with
  | nil => simp [Memory.insertCell]
  | cons d m ih =>
    rw [List.pairwise_cons] at hp
    simp only [Memory.insertCell]
    split
    · rename_i hlt
      refine List.pairwise_cons.mpr ⟨fun c hc => ?_, List.pairwise_cons.mpr hp⟩
      rcases List.mem_cons.mp hc with rfl | hc
      · exact hlt
      · exact Nat.lt_trans hlt (hp.1 c hc)
    · rename_i hge
      refine List.pairwise_cons.mpr ⟨fun c hc => ?_, ih hp.2 fun c hc => h c (by simp [hc])⟩
      rcases (mem_insertCell _ _ _ _).mp hc with rfl | hc
      · have := h d (by simp); simp only; omega
      · exact hp.1 c hc

/-- A write inside the address space keeps the canonical form. -/
theorem wf_store (m : Memory) (a : Nat) (u : Byte) (ha : a < Config.memSize) (h : m.wf = true) :
    (m.store a u).wf = true := by
  rw [wf_iff] at h ⊢
  have hr : (m.remove a).Pairwise fun c d => c.1 < d.1 := h.2.filter _
  unfold Memory.store
  split
  · exact ⟨fun c hc => h.1 c ((mem_remove _ _ _).mp hc).1, hr⟩
  · rename_i hu
    refine ⟨fun c hc => ?_, pairwise_insertCell _ _ _ hr fun c hc => ((mem_remove _ _ _).mp hc).2⟩
    rcases (mem_insertCell _ _ _ _).mp hc with rfl | hc
    · exact ⟨ha, hu⟩
    · exact h.1 c ((mem_remove _ _ _).mp hc).1

/-- A cell listed in a canonical memory is listed in every canonical memory with the same bytes. -/
theorem mem_of_lookup_eq {m n : Memory} (hm : m.wf = true) (h : ∀ a, m.lookup a = n.lookup a)
    {c : Host.Cell} (hc : c ∈ m) : c ∈ n := by
  rw [wf_iff] at hm
  by_contra hcn
  have h1 : m.lookup c.1 = c.2 := lookup_of_mem m hm.2 hc
  by_cases hex : ∃ d ∈ n, d.1 = c.1 ∧ n.lookup c.1 = d.2
  · obtain ⟨d, hd, hd1, hd2⟩ := hex
    have : d = c := Prod.ext hd1 (by rw [← hd2, ← h, h1])
    exact hcn (this ▸ hd)
  · have hu : n.lookup c.1 = unlistedByte c.1 := by
      clear h hcn
      induction n with
      | nil => rfl
      | cons d n ih =>
        rw [lookup_cons] at hex ⊢
        by_cases hd : c.1 = d.1
        · exact absurd ⟨d, by simp, hd.symm, by simp [hd]⟩ hex
        · rw [if_neg hd] at hex ⊢
          exact ih fun ⟨e, he, he1, he2⟩ => hex ⟨e, by simp [he], he1, he2⟩
    exact (hm.1 c hc).2 (by rw [← h1, h, hu])

/-- Two lists of cells at strictly rising addresses with the same cells are the same list. -/
theorem eq_of_pairwise_of_mem {m n : Memory} (hm : m.Pairwise fun c d => c.1 < d.1)
    (hn : n.Pairwise fun c d => c.1 < d.1) (h : ∀ c, c ∈ m ↔ c ∈ n) : m = n := by
  induction m generalizing n with
  | nil =>
    cases n with
    | nil => rfl
    | cons d n => exact absurd ((h d).mpr (by simp)) (by simp)
  | cons c m ih =>
    cases n with
    | nil => exact absurd ((h c).mp (by simp)) (by simp)
    | cons d n =>
      rw [List.pairwise_cons] at hm hn
      have hcd : c = d := by
        rcases List.mem_cons.mp ((h c).mp (by simp)) with e | e
        · exact e
        · rcases List.mem_cons.mp ((h d).mpr (by simp)) with e' | e'
          · exact e'.symm
          · exact absurd (hm.1 d e') (Nat.lt_asymm (hn.1 c e))
      subst hcd
      congr 1
      refine ih hm.2 hn.2 fun e => ⟨fun he => ?_, fun he => ?_⟩
      · rcases List.mem_cons.mp ((h e).mp (by simp [he])) with rfl | e'
        · exact absurd (hm.1 _ he) (Nat.lt_irrefl _)
        · exact e'
      · rcases List.mem_cons.mp ((h e).mpr (by simp [he])) with rfl | e'
        · exact absurd (hn.1 _ he) (Nat.lt_irrefl _)
        · exact e'

/-! ### Reads and writes of the state (R51, R52) -/

theorem memAddr_lt (base : Word) (k : Nat) : memAddr base k < Config.memSize := Nat.mod_lt _ (by decide)

/-- A read after a write: the byte written at that address modulo 4096, every other address as before (R57). -/
theorem memRead_memWrite (s : State) (a b : Nat) (u : Byte) :
    (s.memWrite a u).memRead b = if b % Config.memSize = a % Config.memSize then u else s.memRead b := by
  simp [State.memRead, State.memWrite, lookup_store]

theorem memRead_mod (s : State) (a : Nat) : s.memRead (a % Config.memSize) = s.memRead a := by
  simp [State.memRead]

theorem wf_memWrite (s : State) (a : Nat) (u : Byte) (h : s.mem.wf = true) : (s.memWrite a u).mem.wf = true :=
  wf_store _ _ _ (Nat.mod_lt _ (by decide)) h

/-- Storing bytes changes memory alone. -/
theorem storeBytes_eq (s : State) (base : Word) (k : Nat) (us : List Byte) :
    s.storeBytes base k us = { s with mem := (s.storeBytes base k us).mem } := by
  induction us generalizing s k with
  | nil => rfl
  | cons u us ih => rw [State.storeBytes, ih]; rfl

theorem wf_storeBytes (s : State) (base : Word) (k : Nat) (us : List Byte) (h : s.mem.wf = true) :
    (s.storeBytes base k us).mem.wf = true := by
  induction us generalizing s k with
  | nil => exact h
  | cons u us ih => exact ih _ _ (wf_memWrite _ _ _ h)

/-- Addresses of a transfer of at most 4096 bytes are distinct. -/
theorem memAddr_inj {base : Word} {j k : Nat} (h : memAddr base j = memAddr base k) (hj : j < k + Config.memSize)
    (hk : k < j + Config.memSize) : j = k := by
  simp only [memAddr, Config.memSize] at *
  omega

@[simp] theorem memAddr_mod (base : Word) (k : Nat) : memAddr base k % Config.memSize = memAddr base k :=
  Nat.mod_eq_of_lt (memAddr_lt base k)

/-- An address none of the stored bytes goes to reads as before. -/
theorem memRead_storeBytes_other (s : State) (base : Word) (k : Nat) (us : List Byte) (b : Nat)
    (h : ∀ j, j < us.length → b % Config.memSize ≠ memAddr base (k + j)) :
    (s.storeBytes base k us).memRead b = s.memRead b := by
  induction us generalizing s k with
  | nil => rfl
  | cons u us ih =>
    rw [State.storeBytes, ih _ _ fun j hj => ?_, memRead_memWrite, if_neg (by simpa using h 0 (by simp))]
    have := h (j + 1) (by simpa using hj)
    rwa [Nat.add_assoc, Nat.add_comm 1 j]

/-- Byte `j` of at most 4096 stored bytes is at byte `k + j` of the transfer (R52). -/
theorem memRead_storeBytes (s : State) (base : Word) (k : Nat) (us : List Byte) (hl : us.length ≤ Config.memSize)
    (j : Nat) (hj : j < us.length) : (s.storeBytes base k us).memRead (memAddr base (k + j)) = us[j] := by
  induction us generalizing s k j with
  | nil => simp at hj
  | cons u us ih =>
    simp only [List.length_cons] at hj hl
    rw [State.storeBytes]
    cases j with
    | zero =>
      rw [memRead_storeBytes_other, memRead_memWrite, if_pos (by simp)]
      · rfl
      · intro i hi e
        rw [memAddr_mod] at e
        have := memAddr_inj e (by omega) (by omega)
        omega
    | succ j =>
      have := ih (s.memWrite (memAddr base k) u) (k + 1) (by omega) j (by omega)
      rw [Nat.add_assoc, Nat.add_comm 1 j] at this
      simpa using this

end Sys2Proof.Machine
end

