-- ==== Sys2Proof/Laws/Stack.lean ====
section
/-! SUPPORT. The call stack (R120, R121) and the key operand (R188): what each can answer, said once. -/

namespace Sys2Proof.Machine

/-- A push onto a stack that is not full. -/
theorem push_ok (a : Word) (s : State) (h : s.sp.val < Config.stackCapacity) :
    push a s = .ok { s with stack := s.stack.set s.sp.val a h, sp := ⟨s.sp.val + 1, Nat.succ_lt_succ h⟩ } := by
  simp only [push, dif_pos h]

/-- A push onto a full stack overflows. -/
theorem push_full (a : Word) (s : State) (h : s.sp.val = Config.stackCapacity) :
    push a s = .error .stackOverflow := by
  simp only [push, dif_neg (Nat.not_lt.mpr (Nat.le_of_eq h.symm))]

/-- All that a push can answer. -/
theorem push_cases (a : Word) (s : State) :
    (∃ h : s.sp.val < Config.stackCapacity, push a s =
      .ok { s with stack := s.stack.set s.sp.val a h, sp := ⟨s.sp.val + 1, Nat.succ_lt_succ h⟩ }) ∨
    (s.sp.val = Config.stackCapacity ∧ push a s = .error .stackOverflow) := by
  by_cases h : s.sp.val < Config.stackCapacity
  · exact Or.inl ⟨h, push_ok a s h⟩
  · have e : s.sp.val = Config.stackCapacity := by have := s.sp.isLt; omega
    exact Or.inr ⟨e, push_full a s e⟩

/-- A pop of a stack that is not empty gives the top entry and lowers SP; nothing else changes. -/
theorem pop_ok (s : State) (h : 0 < s.sp.val) (hk : s.sp.val - 1 < Config.stackCapacity) :
    pop s = .ok (s.stack[s.sp.val - 1], { s with sp := ⟨s.sp.val - 1, Nat.lt_succ_of_lt hk⟩ }) := by
  simp only [pop, dif_pos h]
  rfl

/-- A pop of an empty stack underflows. -/
theorem pop_empty (s : State) (h : s.sp.val = 0) : pop s = .error .stackUnderflow := by
  simp only [pop, h, Nat.lt_irrefl, dite_false]

/-- All that a pop can answer. -/
theorem pop_cases (s : State) :
    (∃ hk : s.sp.val - 1 < Config.stackCapacity, 0 < s.sp.val ∧
      pop s = .ok (s.stack[s.sp.val - 1], { s with sp := ⟨s.sp.val - 1, Nat.lt_succ_of_lt hk⟩ })) ∨
    (s.sp.val = 0 ∧ pop s = .error .stackUnderflow) := by
  by_cases h : 0 < s.sp.val
  · have hk : s.sp.val - 1 < Config.stackCapacity := by have := s.sp.isLt; omega
    exact Or.inl ⟨hk, h, pop_ok s h hk⟩
  · exact Or.inr ⟨by omega, pop_empty s (by omega)⟩

/-- A register value up to 15 names that key. -/
theorem keyIndex_ok (b : Byte) (h : b.toNat < 16) : keyIndex b = .ok ⟨b.toNat, h⟩ := by
  simp only [keyIndex, dif_pos h]

/-- A register value above 15 names no key. -/
theorem keyIndex_fault (b : Byte) (h : 15 < b.toNat) : keyIndex b = .error .keyIndexFault := by
  simp only [keyIndex, dif_neg (Nat.not_lt.mpr h)]

/-- All that the key operand can be. -/
theorem keyIndex_cases (b : Byte) :
    (∃ h : b.toNat < 16, keyIndex b = .ok ⟨b.toNat, h⟩) ∨ (15 < b.toNat ∧ keyIndex b = .error .keyIndexFault) := by
  by_cases h : b.toNat < 16
  · exact Or.inl ⟨h, keyIndex_ok b h⟩
  · exact Or.inr ⟨by omega, keyIndex_fault b (by omega)⟩

end Sys2Proof.Machine
end

