-- ==== Sys2Proof/Laws/Exec.lean ====
section
/-! SUPPORT. What executing any instruction can do, said once. -/

namespace Sys2Proof.Machine

/-! ### The four instructions that can fault: what each answers -/

theorem execRet_ok (s : State) (h : 0 < s.sp.val) (hk : s.sp.val - 1 < Config.stackCapacity) :
    execRet s = .next { s with pc := s.stack[s.sp.val - 1], sp := ⟨s.sp.val - 1, Nat.lt_succ_of_lt hk⟩ } := by
  simp only [execRet, pop_ok s h hk]; rfl

theorem execRet_empty (s : State) (h : s.sp.val = 0) : execRet s = raiseFault .stackUnderflow s := by
  simp only [execRet, pop_empty s h]

theorem execCall_ok (nnn : BitVec 12) (s : State) (h : s.sp.val < Config.stackCapacity) :
    execCall nnn s = .next { s with
      pc := zextAddr nnn, stack := s.stack.set s.sp.val s.pc h, sp := ⟨s.sp.val + 1, Nat.succ_lt_succ h⟩ } := by
  simp only [execCall, push_ok s.pc s h]; rfl

theorem execCall_full (nnn : BitVec 12) (s : State) (h : s.sp.val = Config.stackCapacity) :
    execCall nnn s = raiseFault .stackOverflow s := by
  simp only [execCall, push_full s.pc s h]

theorem execSkp_ok (x : Reg) (s : State) (h : (s.reg x).toNat < 16) :
    execSkp x s = .next (s.skipIf (s.keyDown ⟨(s.reg x).toNat, h⟩)) := by
  simp only [execSkp, keyIndex_ok _ h]

theorem execSkp_fault (x : Reg) (s : State) (h : 15 < (s.reg x).toNat) :
    execSkp x s = raiseFault .keyIndexFault s := by
  simp only [execSkp, keyIndex_fault _ h]

theorem execSknp_ok (x : Reg) (s : State) (h : (s.reg x).toNat < 16) :
    execSknp x s = .next (s.skipIf (!s.keyDown ⟨(s.reg x).toNat, h⟩)) := by
  simp only [execSknp, keyIndex_ok _ h]

theorem execSknp_fault (x : Reg) (s : State) (h : 15 < (s.reg x).toNat) :
    execSknp x s = raiseFault .keyIndexFault s := by
  simp only [execSknp, keyIndex_fault _ h]

/-! ### Every instruction -/

/-- An instruction that completes: it answers a next state with the fault record, the trace and the host's inputs as they
were, and with memory in canonical form if it was. -/
def Completes (i : Instr) (s : State) : Prop :=
  ∃ t, exec i s = .next t ∧ t.fault = s.fault ∧ t.trace = s.trace ∧ t.host = s.host ∧ (s.mem.wf = true → t.mem.wf = true)

/-- The fault an instruction raises in a state, if it raises one: the whole of R200 but for decode faults. -/
def faultRaised : Instr → State → Option FaultCause
  | .ret, s => if s.sp.val = 0 then some .stackUnderflow else none
  | .call _, s => if s.sp.val = Config.stackCapacity then some .stackOverflow else none
  | .skp x, s => if 15 < (s.reg x).toNat then some .keyIndexFault else none
  | .sknp x, s => if 15 < (s.reg x).toNat then some .keyIndexFault else none
  | _, _ => none

theorem completes_of_mem_eq {i : Instr} {s t : State} (he : exec i s = .next t) (hf : t.fault = s.fault)
    (ht : t.trace = s.trace) (hh : t.host = s.host) (hm : t.mem = s.mem) : Completes i s :=
  ⟨t, he, hf, ht, hh, fun h => hm ▸ h⟩

theorem completes_of_regs {i : Instr} {s t : State} (he : exec i s = .next t) (ht : t = { s with v := t.v }) :
    Completes i s := by
  rw [ht] at he
  exact completes_of_mem_eq he rfl rfl rfl rfl

/-- Every instruction either completes or raises the one fault it has (R106, R203). -/
theorem exec_cases (i : Instr) (s : State) :
    (faultRaised i s = none ∧ Completes i s) ∨ (∃ c, faultRaised i s = some c ∧ exec i s = raiseFault c s) := by
  cases i with
  | ret =>
    rcases Nat.eq_zero_or_pos s.sp.val with h | h
    · exact Or.inr ⟨.stackUnderflow, by simp [faultRaised, h], execRet_empty s h⟩
    · have hk : s.sp.val - 1 < Config.stackCapacity := by have := s.sp.isLt; omega
      refine Or.inl ⟨by simp only [faultRaised, if_neg (Nat.ne_of_gt h)], ?_⟩
      exact completes_of_mem_eq (execRet_ok s h hk) rfl rfl rfl rfl
  | call nnn =>
    by_cases h : s.sp.val < Config.stackCapacity
    · refine Or.inl ⟨by simp only [faultRaised, if_neg (Nat.ne_of_lt h)], ?_⟩
      exact completes_of_mem_eq (execCall_ok nnn s h) rfl rfl rfl rfl
    · have e : s.sp.val = Config.stackCapacity := by have := s.sp.isLt; omega
      exact Or.inr ⟨.stackOverflow, by simp [faultRaised, e], execCall_full nnn s e⟩
  | skp x =>
    by_cases h : (s.reg x).toNat < 16
    · refine Or.inl ⟨by simp only [faultRaised, if_neg (Nat.not_lt.mpr (Nat.le_of_lt_succ h))], ?_⟩
      exact completes_of_mem_eq (execSkp_ok x s h) rfl rfl rfl rfl
    · have h' : 15 < (s.reg x).toNat := by omega
      exact Or.inr ⟨.keyIndexFault, by simp only [faultRaised, if_pos h'], execSkp_fault x s h'⟩
  | sknp x =>
    by_cases h : (s.reg x).toNat < 16
    · refine Or.inl ⟨by simp only [faultRaised, if_neg (Nat.not_lt.mpr (Nat.le_of_lt_succ h))], ?_⟩
      exact completes_of_mem_eq (execSknp_ok x s h) rfl rfl rfl rfl
    · have h' : 15 < (s.reg x).toNat := by omega
      exact Or.inr ⟨.keyIndexFault, by simp only [faultRaised, if_pos h'], execSknp_fault x s h'⟩
  | addReg x y => exact Or.inl ⟨rfl, completes_of_regs rfl (resultThenFlag_eq _ _ _ _ _)⟩
  | sub x y => exact Or.inl ⟨rfl, completes_of_regs rfl (resultThenFlag_eq _ _ _ _ _)⟩
  | subn x y => exact Or.inl ⟨rfl, completes_of_regs rfl (resultThenFlag_eq _ _ _ _ _)⟩
  | shr x => exact Or.inl ⟨rfl, completes_of_regs rfl (flagThenShift_eq _ _ _ _ _)⟩
  | shl x => exact Or.inl ⟨rfl, completes_of_regs rfl (flagThenShift_eq _ _ _ _ _)⟩
  | loadRegs x => exact Or.inl ⟨rfl, completes_of_regs rfl (loadLoop_eq _ _ _)⟩
  | ldB x =>
    refine Or.inl ⟨rfl, _, rfl, ?_, ?_, ?_, wf_storeBytes _ _ _ _⟩ <;> rw [storeBytes_eq]
  | storeRegs x =>
    refine Or.inl ⟨rfl, _, rfl, ?_, ?_, ?_, wf_storeBytes _ _ _ _⟩ <;> rw [storeBytes_eq]
  | _ => exact Or.inl ⟨rfl, completes_of_mem_eq rfl rfl rfl rfl rfl⟩

end Sys2Proof.Machine
end

