-- ==== Sys2Proof/Laws/PerInstr.lean ====
section
/-! SUPPORT. Statements made of every instruction, one lemma per constructor. -/

namespace Sys2Proof.Laws.EncodingInRow

/-- The word an instruction is encoded as selects the instruction's own row of the opcode table (R75, R81). -/
def Statement (i : Instr) : Prop := i.row.selects (encode i) = true

theorem cls : Statement .cls := rfl

theorem ret : Statement .ret := rfl

theorem jp (nnn : BitVec 12) : Statement (.jp nnn) :=
  (selects_F000 _ _ _ 0x1 rfl).mpr (congrArg BitVec.toNat (nibble3_wordA _ _))

theorem call (nnn : BitVec 12) : Statement (.call nnn) :=
  (selects_F000 _ _ _ 0x2 rfl).mpr (congrArg BitVec.toNat (nibble3_wordA _ _))

theorem seImm (x : Reg) (kk : Byte) : Statement (.seImm x kk) :=
  (selects_F000 _ _ _ 0x3 rfl).mpr (congrArg BitVec.toNat (nibble3_wordXK _ _ _))

theorem sneImm (x : Reg) (kk : Byte) : Statement (.sneImm x kk) :=
  (selects_F000 _ _ _ 0x4 rfl).mpr (congrArg BitVec.toNat (nibble3_wordXK _ _ _))

theorem seReg (x y : Reg) : Statement (.seReg x y) :=
  (selects_F00F _ _ _ 0x5 0x0 rfl).mpr ⟨congrArg BitVec.toNat (nibble3_wordXY _ _ _ _), fieldN_wordXY _ _ _ _⟩

theorem ldImm (x : Reg) (kk : Byte) : Statement (.ldImm x kk) :=
  (selects_F000 _ _ _ 0x6 rfl).mpr (congrArg BitVec.toNat (nibble3_wordXK _ _ _))

theorem addImm (x : Reg) (kk : Byte) : Statement (.addImm x kk) :=
  (selects_F000 _ _ _ 0x7 rfl).mpr (congrArg BitVec.toNat (nibble3_wordXK _ _ _))

theorem ldReg (x y : Reg) : Statement (.ldReg x y) :=
  (selects_F00F _ _ _ 0x8 0x0 rfl).mpr ⟨congrArg BitVec.toNat (nibble3_wordXY _ _ _ _), fieldN_wordXY _ _ _ _⟩

theorem or (x y : Reg) : Statement (.or x y) :=
  (selects_F00F _ _ _ 0x8 0x1 rfl).mpr ⟨congrArg BitVec.toNat (nibble3_wordXY _ _ _ _), fieldN_wordXY _ _ _ _⟩

theorem and (x y : Reg) : Statement (.and x y) :=
  (selects_F00F _ _ _ 0x8 0x2 rfl).mpr ⟨congrArg BitVec.toNat (nibble3_wordXY _ _ _ _), fieldN_wordXY _ _ _ _⟩

theorem xor (x y : Reg) : Statement (.xor x y) :=
  (selects_F00F _ _ _ 0x8 0x3 rfl).mpr ⟨congrArg BitVec.toNat (nibble3_wordXY _ _ _ _), fieldN_wordXY _ _ _ _⟩

theorem addReg (x y : Reg) : Statement (.addReg x y) :=
  (selects_F00F _ _ _ 0x8 0x4 rfl).mpr ⟨congrArg BitVec.toNat (nibble3_wordXY _ _ _ _), fieldN_wordXY _ _ _ _⟩

theorem sub (x y : Reg) : Statement (.sub x y) :=
  (selects_F00F _ _ _ 0x8 0x5 rfl).mpr ⟨congrArg BitVec.toNat (nibble3_wordXY _ _ _ _), fieldN_wordXY _ _ _ _⟩

theorem shr (x : Reg) : Statement (.shr x) :=
  (selects_F00F _ _ _ 0x8 0x6 rfl).mpr ⟨congrArg BitVec.toNat (nibble3_wordXY _ _ _ _), fieldN_wordXY _ _ _ _⟩

theorem subn (x y : Reg) : Statement (.subn x y) :=
  (selects_F00F _ _ _ 0x8 0x7 rfl).mpr ⟨congrArg BitVec.toNat (nibble3_wordXY _ _ _ _), fieldN_wordXY _ _ _ _⟩

theorem shl (x : Reg) : Statement (.shl x) :=
  (selects_F00F _ _ _ 0x8 0xe rfl).mpr ⟨congrArg BitVec.toNat (nibble3_wordXY _ _ _ _), fieldN_wordXY _ _ _ _⟩

theorem sneReg (x y : Reg) : Statement (.sneReg x y) :=
  (selects_F00F _ _ _ 0x9 0x0 rfl).mpr ⟨congrArg BitVec.toNat (nibble3_wordXY _ _ _ _), fieldN_wordXY _ _ _ _⟩

theorem ldI (nnn : BitVec 12) : Statement (.ldI nnn) :=
  (selects_F000 _ _ _ 0xa rfl).mpr (congrArg BitVec.toNat (nibble3_wordA _ _))

theorem jpV0 (nnn : BitVec 12) : Statement (.jpV0 nnn) :=
  (selects_F000 _ _ _ 0xb rfl).mpr (congrArg BitVec.toNat (nibble3_wordA _ _))

theorem rnd (x : Reg) (kk : Byte) : Statement (.rnd x kk) :=
  (selects_F000 _ _ _ 0xc rfl).mpr (congrArg BitVec.toNat (nibble3_wordXK _ _ _))

theorem drw (x y : Reg) (n : Nat) : Statement (.drw x y n) :=
  (selects_F000 _ _ _ 0xd rfl).mpr (congrArg BitVec.toNat (nibble3_wordXY _ _ _ _))

theorem skp (x : Reg) : Statement (.skp x) :=
  (selects_F0FF _ _ _ 0xe 0x9e rfl).mpr ⟨congrArg BitVec.toNat (nibble3_wordXK _ _ _), congrArg BitVec.toNat (fieldKK_wordXK _ _ _)⟩

theorem sknp (x : Reg) : Statement (.sknp x) :=
  (selects_F0FF _ _ _ 0xe 0xa1 rfl).mpr ⟨congrArg BitVec.toNat (nibble3_wordXK _ _ _), congrArg BitVec.toNat (fieldKK_wordXK _ _ _)⟩

theorem ldVxDT (x : Reg) : Statement (.ldVxDT x) :=
  (selects_F0FF _ _ _ 0xf 0x7 rfl).mpr ⟨congrArg BitVec.toNat (nibble3_wordXK _ _ _), congrArg BitVec.toNat (fieldKK_wordXK _ _ _)⟩

theorem ldVxK (x : Reg) : Statement (.ldVxK x) :=
  (selects_F0FF _ _ _ 0xf 0xa rfl).mpr ⟨congrArg BitVec.toNat (nibble3_wordXK _ _ _), congrArg BitVec.toNat (fieldKK_wordXK _ _ _)⟩

theorem ldDT (x : Reg) : Statement (.ldDT x) :=
  (selects_F0FF _ _ _ 0xf 0x15 rfl).mpr ⟨congrArg BitVec.toNat (nibble3_wordXK _ _ _), congrArg BitVec.toNat (fieldKK_wordXK _ _ _)⟩

theorem ldST (x : Reg) : Statement (.ldST x) :=
  (selects_F0FF _ _ _ 0xf 0x18 rfl).mpr ⟨congrArg BitVec.toNat (nibble3_wordXK _ _ _), congrArg BitVec.toNat (fieldKK_wordXK _ _ _)⟩

theorem addI (x : Reg) : Statement (.addI x) :=
  (selects_F0FF _ _ _ 0xf 0x1e rfl).mpr ⟨congrArg BitVec.toNat (nibble3_wordXK _ _ _), congrArg BitVec.toNat (fieldKK_wordXK _ _ _)⟩

theorem ldF (x : Reg) : Statement (.ldF x) :=
  (selects_F0FF _ _ _ 0xf 0x29 rfl).mpr ⟨congrArg BitVec.toNat (nibble3_wordXK _ _ _), congrArg BitVec.toNat (fieldKK_wordXK _ _ _)⟩

theorem ldB (x : Reg) : Statement (.ldB x) :=
  (selects_F0FF _ _ _ 0xf 0x33 rfl).mpr ⟨congrArg BitVec.toNat (nibble3_wordXK _ _ _), congrArg BitVec.toNat (fieldKK_wordXK _ _ _)⟩

theorem storeRegs (x : Reg) : Statement (.storeRegs x) :=
  (selects_F0FF _ _ _ 0xf 0x55 rfl).mpr ⟨congrArg BitVec.toNat (nibble3_wordXK _ _ _), congrArg BitVec.toNat (fieldKK_wordXK _ _ _)⟩

theorem loadRegs (x : Reg) : Statement (.loadRegs x) :=
  (selects_F0FF _ _ _ 0xf 0x65 rfl).mpr ⟨congrArg BitVec.toNat (nibble3_wordXK _ _ _), congrArg BitVec.toNat (fieldKK_wordXK _ _ _)⟩

end Sys2Proof.Laws.EncodingInRow
end

