-- ==== Sys2Proof/Laws/Step.lean ====
section
/-! SUPPORT. What one step can do, said once: the fetch, the decode and the two entry points. -/

namespace Sys2Proof.Machine

/-! ### The host's calls -/

theorem nextCall_of_queued {s : State} {c : HostCall} {cs : List HostCall} (h : s.host.calls = c :: cs) :
    nextCall s = c := by
  simp only [nextCall, h, List.headD_cons]

theorem nextCall_of_none_queued {s : State} (h : s.host.calls = []) : nextCall s = freeCall s.host.draws := by
  simp only [nextCall, h, List.headD_nil]

/-- Making a tick the next call changes nothing but the queue. -/
theorem withTickNext_eq (s : State) :
    withTickNext s = { s with host := { s.host with calls := (withTickNext s).host.calls } } := by
  unfold withTickNext
  split <;> rfl

theorem nextCall_withTickNext (s : State) : ∃ k b, nextCall (withTickNext s) = .tick k b := by
  unfold withTickNext
  split
  · exact ⟨_, _, nextCall_of_queued ‹_›⟩
  · exact ⟨_, _, rfl⟩
  · exact ⟨_, _, rfl⟩

/-! ### The step -/

theorem step_of_fault {s : State} {r : FaultRecord} (h : s.fault = some r) : step s = .fault (.coreFaulted r) := by
  simp only [step, h]

theorem step_of_no_fault {s : State} (h : s.fault = none) : step s = runCall s := by
  simp only [step, h]

/-- The state an instruction of the next tick executes in: the inputs brought in and pc advanced (R102, R104). -/
def tickState (k : Keypad) (b : Byte) (s : State) : State := (bringInputs k b (dropCall s)).advancePc

theorem tickState_eq (k : Keypad) (b : Byte) (s : State) :
    tickState k b s = { s with pc := s.pc + 2, host := (tickState k b s).host } := rfl

theorem runCall_of_tick {s : State} {k : Keypad} {b : Byte} (h : nextCall s = .tick k b) :
    runCall s = runWord s.fetchWord (tickState k b s) := by
  simp only [runCall, h, perform, tick]
  rfl

theorem runCall_of_timerAdvance {s : State} (h : nextCall s = .timerAdvance) :
    runCall s = .next (timerAdvance (dropCall s)) := by
  simp only [runCall, h, perform]

theorem add_two_sub_two (a : Word) : a + 2 - 2 = a := by simp

/-- A fault raised inside a tick records the fetched word and its address, and leaves all else as before the tick. -/
theorem raiseFault_tickState (c : FaultCause) (k : Keypad) (b : Byte) (s : State) :
    raiseFault c (tickState k b s) =
      .next { s with fault := some ⟨c, s.fetchWord, s.pc⟩, host := (tickState k b s).host } := by
  have e : (tickState k b s).pc - 2 = s.pc := add_two_sub_two s.pc
  simp only [raiseFault, e]
  rfl

/-- All that a step of a core with no fault can do. -/
theorem runCall_cases (s : State) :
    (nextCall s = .timerAdvance ∧ runCall s = .next (timerAdvance (dropCall s))) ∨
    (∃ k b, nextCall s = .tick k b ∧
      ((∃ i, decode s.fetchWord = .ok i ∧ faultRaised i (tickState k b s) = none ∧ Completes i (tickState k b s) ∧
          runCall s = exec i (tickState k b s)) ∨
        (∃ c, runCall s = .next { s with fault := some ⟨c, s.fetchWord, s.pc⟩, host := (tickState k b s).host } ∧
          ((c = .decodeFault ∧ ∃ e, decode s.fetchWord = .error e) ∨
            (∃ i, decode s.fetchWord = .ok i ∧ faultRaised i (tickState k b s) = some c))))) := by
  cases hc : nextCall s with
  | timerAdvance => exact Or.inl ⟨rfl, runCall_of_timerAdvance hc⟩
  | tick k b =>
    refine Or.inr ⟨k, b, rfl, ?_⟩
    have hr := runCall_of_tick hc
    cases hd : decode s.fetchWord with
    | error e =>
      refine Or.inr ⟨.decodeFault, ?_, Or.inl ⟨rfl, e, rfl⟩⟩
      rw [hr, ← raiseFault_tickState]
      simp only [runWord, hd]
    | ok i =>
      have he : runCall s = exec i (tickState k b s) := by rw [hr]; simp only [runWord, hd]
      rcases exec_cases i (tickState k b s) with ⟨hn, hcm⟩ | ⟨c, hf, hx⟩
      · exact Or.inl ⟨i, rfl, hn, hcm, he⟩
      · exact Or.inr ⟨c, by rw [he, hx, raiseFault_tickState], Or.inr ⟨i, rfl, hf⟩⟩

/-- A run whose first step has a next state goes on from it. -/
theorem run_of_next {n : Nat} {s t : State} (h : step s = .next t) :
    Host.Core.run core (n + 1) s = Host.Core.run core n t := by
  have h' : core.step s = .next t := h
  simp only [Host.Core.run, h']

end Sys2Proof.Machine
end

