-- ==== Sys2Proof/Tests/Slice0.lean ====
section
/-! SUPPORT. Tests: words written out from the encodings of R75, the spec's own vectors (95_test_vectors.md, ids W and V),
and for every statement with hypotheses a state and operands that meet them. -/

namespace Sys2Proof.Tests

open Sys2Proof.Machine

/-! ### WellFormed: the one check refuses an ill-formed term -/

theorem test_wellFormed_refuses_drw_of_16_rows : (Instr.drw 0 0 16).wellFormed = false := by decide

theorem test_wellFormed_accepts_drw_of_0_and_15_rows :
    (Instr.drw 0 0 0).wellFormed = true ∧ (Instr.drw 15 15 15).wellFormed = true := by decide

/-! ### Decoding: every row of R75, its word written bit by bit from the row's pattern -/

theorem test_decode_control :
    decode 0b0000000011101110 = .ok .ret ∧
    decode 0b0001101001011110 = .ok (.jp 0xA5E) ∧
    decode 0b0010101001011110 = .ok (.call 0xA5E) ∧
    decode 0b0011101111000101 = .ok (.seImm 11 0xC5) ∧
    decode 0b0100101111000101 = .ok (.sneImm 11 0xC5) ∧
    decode 0b0101101101100000 = .ok (.seReg 11 6) ∧
    decode 0b1001101101100000 = .ok (.sneReg 11 6) ∧
    decode 0b1011101001011110 = .ok (.jpV0 0xA5E) := by decide

theorem test_decode_arithmetic :
    decode 0b0110101111000101 = .ok (.ldImm 11 0xC5) ∧
    decode 0b0111101111000101 = .ok (.addImm 11 0xC5) ∧
    decode 0b1000101101100000 = .ok (.ldReg 11 6) ∧
    decode 0b1000101101100001 = .ok (.or 11 6) ∧
    decode 0b1000101101100010 = .ok (.and 11 6) ∧
    decode 0b1000101101100011 = .ok (.xor 11 6) ∧
    decode 0b1000101101100100 = .ok (.addReg 11 6) ∧
    decode 0b1000101101100101 = .ok (.sub 11 6) ∧
    decode 0b1000101101100110 = .ok (.shr 11) ∧
    decode 0b1000101101100111 = .ok (.subn 11 6) ∧
    decode 0b1000101101101110 = .ok (.shl 11) ∧
    decode 0b1100101111000101 = .ok (.rnd 11 0xC5) := by decide

theorem test_decode_index_and_memory :
    decode 0b1010101001011110 = .ok (.ldI 0xA5E) ∧
    decode 0b1111101100011110 = .ok (.addI 11) ∧
    decode 0b1111101100101001 = .ok (.ldF 11) ∧
    decode 0b1111101100110011 = .ok (.ldB 11) ∧
    decode 0b1111101101010101 = .ok (.storeRegs 11) ∧
    decode 0b1111101101100101 = .ok (.loadRegs 11) := by decide

theorem test_decode_display :
    decode 0b0000000011100000 = .ok .cls ∧
    decode 0b1101101101101001 = .ok (.drw 11 6 9) := by decide

theorem test_decode_timers_and_keys :
    decode 0b1111101100000111 = .ok (.ldVxDT 11) ∧
    decode 0b1111101100010101 = .ok (.ldDT 11) ∧
    decode 0b1111101100011000 = .ok (.ldST 11) ∧
    decode 0b1110101110011110 = .ok (.skp 11) ∧
    decode 0b1110101110100001 = .ok (.sknp 11) ∧
    decode 0b1111101100001010 = .ok (.ldVxK 11) := by decide

/-- Words beside the rows of R75 are refused by name: the low nibble of 5xy0, 8xy and 9xy0, the low byte of E and F (R77, V17,
V58, V98 to V102). -/
theorem test_decode_refuses_words_with_no_row :
    decode 0x5121 = .error (.noPattern 0x5121) ∧ decode 0x9128 = .error (.noPattern 0x9128) ∧
    decode 0x8008 = .error (.noPattern 0x8008) ∧ decode 0x812F = .error (.noPattern 0x812F) ∧
    decode 0xE000 = .error (.noPattern 0xE000) ∧ decode 0xF000 = .error (.noPattern 0xF000) ∧
    decode 0x0123 = .error (.noPattern 0x0123) ∧ decode 0xFFFF = .error (.noPattern 0xFFFF) := by decide

theorem test_decodeBytes_is_big_endian_and_needs_two_bytes :
    decodeBytes [0x12, 0x34, 0xFF] = .ok (.jp 0x234, [0xFF]) ∧ decodeBytes [0x12] = .error .truncated := by decide

theorem test_decodeTableWord_reads_the_table_numbering :
    decodeTableWord 16 0x8124 = some (.addReg 1 2) ∧ decodeTableWord 16 0x5121 = none := by decide

/-! ### One step of each instruction, from the spec's vectors -/

/-- Set some registers. -/
def withRegs (rs : List (Reg × Byte)) (s : State) : State := rs.foldl (fun t p => t.setReg p.1 p.2) s

/-- Place a word where the next step fetches, with the given inputs of its tick. -/
def ready (w : Nat) (k : Keypad) (b : Byte) (s : State) : State :=
  { s.withFetchWord 16 w with host := { s.host with calls := [.tick k b] } }

/-- The state after one tick that fetches the word with no key down and none marked. -/
def run (w : Nat) (s : State) : Option State :=
  match step (ready w Keypad.idle 0 s) with
  | .next t => some t
  | _ => none

/-- The state after one tick that fetches the word with the given inputs. -/
def runWith (w : Nat) (k : Keypad) (b : Byte) (s : State) : Option State :=
  match step (ready w k b s) with
  | .next t => some t
  | _ => none

/-- A keypad with one key down and an optional marked key. -/
def keypadWith (d : Key) (l : Option Key) : Keypad := ⟨(Vector.replicate 16 false).set d.val true d.isLt, l⟩

/-- A state with `n` return addresses, 0x206 each, and pc at 0x204. -/
def stacked (n : Fin (Config.stackCapacity + 1)) : State :=
  { State.reset with stack := Vector.replicate Config.stackCapacity 0x206, sp := n, pc := 0x204 }

/-- A state with I at 0x300 and some bytes there. -/
def withBytes (us : List Byte) (s : State) : State := { s with i := 0x300 }.storeBytes 0x300 0 us

/-- V2. -/
theorem test_jp :
    (run 0x1301 State.reset).map (fun t => t.pc) =
      some 0x301 := by decide

/-- V4, at 0x204. -/
theorem test_call :
    (run 0x2300 { State.reset with pc := 0x204 }).map (fun t => (t.pc, t.sp.val, t.stack[0])) =
      some (0x300, 1, 0x206) := by decide

/-- V5. -/
theorem test_call_full :
    (run 0x2300 (stacked 12)).map (fun t => (t.fault, t.pc, t.sp.val)) =
      some (some ⟨.stackOverflow, 0x2300, 0x204⟩, 0x204, 12) := by decide

/-- V7. -/
theorem test_ret :
    (run 0x00EE (stacked 1)).map (fun t => (t.pc, t.sp.val, t.stack[0])) =
      some (0x206, 0, 0x206) := by decide

/-- V8. -/
theorem test_ret_empty :
    (run 0x00EE State.reset).map (fun t => (t.fault, t.pc)) =
      some (some ⟨.stackUnderflow, 0x00EE, 0x200⟩, 0x200) := by decide

/-- V9. -/
theorem test_seImm_equal :
    (run 0x332A (withRegs [(3, 0x2A)] State.reset)).map (fun t => t.pc) =
      some 0x204 := by decide

/-- V10. -/
theorem test_seImm_differs :
    (run 0x332A (withRegs [(3, 0x2B)] State.reset)).map (fun t => t.pc) =
      some 0x202 := by decide

/-- V11. -/
theorem test_sneImm_differs :
    (run 0x432A (withRegs [(3, 0x2B)] State.reset)).map (fun t => t.pc) =
      some 0x204 := by decide

/-- V12. -/
theorem test_sneImm_equal :
    (run 0x432A (withRegs [(3, 0x2A)] State.reset)).map (fun t => t.pc) =
      some 0x202 := by decide

/-- V13. -/
theorem test_seReg_equal :
    (run 0x5120 (withRegs [(1, 7), (2, 7)] State.reset)).map (fun t => t.pc) =
      some 0x204 := by decide

/-- V15. -/
theorem test_sneReg_differs :
    (run 0x9120 (withRegs [(1, 7), (2, 8)] State.reset)).map (fun t => t.pc) =
      some 0x204 := by decide

/-- V16. -/
theorem test_sneReg_same_register :
    (run 0x9110 (withRegs [(1, 7)] State.reset)).map (fun t => t.pc) =
      some 0x202 := by decide

/-- V19. -/
theorem test_jpV0 :
    (run 0xB234 (withRegs [(0, 0x10)] State.reset)).map (fun t => t.pc) =
      some 0x044 := by decide

/-- V20. -/
theorem test_jpV0_wraps :
    (run 0xB201 (withRegs [(0, 0xFF)] State.reset)).map (fun t => t.pc) =
      some 0x000 := by decide

/-- V24. -/
theorem test_ldImm :
    (run 0x6F07 State.reset).map (fun t => t.reg vf) =
      some 0x07 := by decide

/-- V25. -/
theorem test_addImm :
    (run 0x7102 (withRegs [(1, 0xFF), (vf, 0x55)] State.reset)).map (fun t => (t.reg 1, t.reg vf)) =
      some (0x01, 0x55) := by decide

/-- V28. -/
theorem test_ldReg :
    (run 0x8120 (withRegs [(2, 0x11)] State.reset)).map (fun t => (t.reg 1, t.reg 2)) =
      some (0x11, 0x11) := by decide

/-- V29. -/
theorem test_or :
    (run 0x8121 (withRegs [(1, 0xF0), (2, 0x0F), (vf, 0x55)] State.reset)).map (fun t => (t.reg 1, t.reg vf)) =
      some (0xFF, 0x55) := by decide

/-- V30. -/
theorem test_and :
    (run 0x8122 (withRegs [(1, 0xF0), (2, 0x3C), (vf, 0x55)] State.reset)).map (fun t => (t.reg 1, t.reg vf)) =
      some (0x30, 0x55) := by decide

/-- V31. -/
theorem test_xor :
    (run 0x8123 (withRegs [(1, 0xF0), (2, 0x3C), (vf, 0x55)] State.reset)).map (fun t => (t.reg 1, t.reg vf)) =
      some (0xCC, 0x55) := by decide

/-- W2. -/
theorem test_addReg :
    (run 0x8124 (withRegs [(1, 0xFF), (2, 0x01)] State.reset)).map (fun t => (t.reg 1, t.reg vf)) =
      some (0x00, 1) := by decide

/-- V37. -/
theorem test_addReg_into_vf :
    (run 0x8F14 (withRegs [(vf, 0xFF), (1, 0x02)] State.reset)).map (fun t => t.reg vf) =
      some 1 := by decide

/-- W3. -/
theorem test_sub :
    (run 0x8125 (withRegs [(1, 0x05), (2, 0x0A)] State.reset)).map (fun t => (t.reg 1, t.reg vf)) =
      some (0xFB, 0) := by decide

/-- V40. -/
theorem test_sub_equal :
    (run 0x8125 (withRegs [(1, 0x07), (2, 0x07)] State.reset)).map (fun t => (t.reg 1, t.reg vf)) =
      some (0x00, 1) := by decide

/-- V45, Y ignored. -/
theorem test_shr :
    (run 0x81F6 (withRegs [(1, 0xFF)] State.reset)).map (fun t => (t.reg 1, t.reg vf)) =
      some (0x7F, 1) := by decide

/-- V46. -/
theorem test_shr_of_vf :
    (run 0x8FF6 (withRegs [(vf, 0x03)] State.reset)).map (fun t => t.reg vf) =
      some 0 := by decide

/-- V47. -/
theorem test_subn :
    (run 0x8127 (withRegs [(1, 0x0A), (2, 0x05)] State.reset)).map (fun t => (t.reg 1, t.reg 2, t.reg vf)) =
      some (0x0A, 0xFB, 0) := by decide

/-- V51. -/
theorem test_subn_into_vf :
    (run 0x81F7 (withRegs [(1, 0x01), (vf, 0x03)] State.reset)).map (fun t => (t.reg 1, t.reg vf)) =
      some (0x01, 1) := by decide

/-- V52. -/
theorem test_shl :
    (run 0x810E (withRegs [(1, 0x81)] State.reset)).map (fun t => (t.reg 1, t.reg vf)) =
      some (0x02, 0x80) := by decide

/-- V54. -/
theorem test_shl_of_vf :
    (run 0x8FFE (withRegs [(vf, 0x80)] State.reset)).map (fun t => t.reg vf) =
      some 0x00 := by decide

/-- V55. -/
theorem test_rnd :
    (runWith 0xC10F Keypad.idle 0xA7 State.reset).map (fun t => t.reg 1) =
      some 0x07 := by decide

/-- V59. -/
theorem test_ldI :
    (run 0xA300 State.reset).map (fun t => t.i) =
      some 0x300 := by decide

/-- V60. -/
theorem test_addI :
    (run 0xF21E (withRegs [(2, 0x05), (vf, 0x55)] { State.reset with i := 0xFFE })).map (fun t => (t.i, t.reg vf)) =
      some (0x1003, 0x55) := by decide

/-- V61. -/
theorem test_addI_wraps :
    (run 0xF21E (withRegs [(2, 0x01)] { State.reset with i := 0xFFFF })).map (fun t => t.i) =
      some 0x0000 := by decide

/-- V64. -/
theorem test_ldF :
    (run 0xF429 (withRegs [(4, 0xFF)] State.reset)).map (fun t => t.i) =
      some 0x4FB := by decide

/-- V69. -/
theorem test_ldB :
    (run 0xF033 (withRegs [(0, 123)] { State.reset with i := 0xFFF })).map (fun t => (t.memRead 0xFFF, t.memRead 0, t.memRead 1, t.i)) =
      some (1, 2, 3, 0xFFF) := by decide

/-- V72. -/
theorem test_storeRegs :
    (run 0xF255 (withRegs [(0, 1), (1, 2), (2, 3)] { State.reset with i := 0xFFE })).map (fun t => (t.memRead 0xFFE, t.memRead 0xFFF, t.memRead 0, t.i)) =
      some (1, 2, 3, 0xFFE) := by decide

/-- V74. -/
theorem test_loadRegs :
    (run 0xF265 (withBytes [2, 5, 4, 9] State.reset)).map (fun t => (t.reg 0, t.reg 1, t.reg 2, t.reg 3, t.i)) =
      some (2, 5, 4, 0, 0x300) := by decide

/-- V76. -/
theorem test_cls :
    (run 0x00E0 (withRegs [(vf, 0x55)] { State.reset with fb := (State.reset.fb.setPixel 0 0 true).setPixel 31 63 true })).map (fun t => (t.fb.pixel 0 0, t.fb.pixel 31 63, t.reg vf)) =
      some (false, false, 0x55) := by decide +kernel

/-- W5, the first draw. -/
theorem test_drw_wraps :
    (run 0xD012 (withRegs [(0, 60), (1, 30)] (withBytes [0xFF, 0xFF] State.reset))).map (fun t => (t.fb.pixel 30 63, t.fb.pixel 31 3, t.fb.pixel 31 4, t.fb.pixel 0 0, t.reg vf)) =
      some (true, true, false, false, 0) := by decide +kernel

/-- V79. -/
theorem test_drw_collides :
    (run 0xD011 (withBytes [0xC0] { State.reset with fb := State.reset.fb.setPixel 0 0 true })).map (fun t => (t.fb.pixel 0 0, t.fb.pixel 0 1, t.reg vf)) =
      some (false, true, 1) := by decide +kernel

/-- V84. -/
theorem test_ldVxDT :
    (run 0xF507 { State.reset with dt := 0x3C }).map (fun t => (t.reg 5, t.dt)) =
      some (0x3C, 0x3C) := by decide

/-- V83. -/
theorem test_ldDT :
    (run 0xF515 (withRegs [(5, 0x3C)] State.reset)).map (fun t => (t.dt, t.st)) =
      some (0x3C, 0) := by decide

/-- V90. -/
theorem test_ldST :
    (run 0xF018 { State.reset with st := 1 }).map (fun t => (t.st, t.trace)) =
      some (0, []) := by decide

/-- V91. -/
theorem test_skp :
    (runWith 0xE29E (keypadWith 5 none) 0 (withRegs [(2, 5)] State.reset)).map (fun t => t.pc) =
      some 0x204 := by decide

/-- V95. -/
theorem test_skp_above_15 :
    (run 0xE29E (withRegs [(2, 0x10)] State.reset)).map (fun t => (t.fault, t.pc)) =
      some (some ⟨.keyIndexFault, 0xE29E, 0x200⟩, 0x200) := by decide

/-- V93. -/
theorem test_sknp_up :
    (run 0xE2A1 (withRegs [(2, 5)] State.reset)).map (fun t => t.pc) =
      some 0x204 := by decide

/-- V94. -/
theorem test_sknp_down :
    (runWith 0xE2A1 (keypadWith 5 none) 0 (withRegs [(2, 5)] State.reset)).map (fun t => t.pc) =
      some 0x202 := by decide

/-- V96. -/
theorem test_ldVxK_polls :
    (run 0xF30A (withRegs [(3, 0x33)] State.reset)).map (fun t => (t.pc, t.reg 3)) =
      some (0x200, 0x33) := by decide

/-- V97. -/
theorem test_ldVxK_loads :
    (runWith 0xF30A (keypadWith 0 (some 15)) 0 (withRegs [(3, 0x33)] State.reset)).map (fun t => (t.pc, t.reg 3)) =
      some (0x202, 0x0F) := by decide

/-- V99. -/
theorem test_decode_fault :
    (run 0x0000 State.reset).map (fun t => (t.fault, t.pc)) =
      some (some ⟨.decodeFault, 0x0000, 0x200⟩, 0x200) := by decide

/-- V88 and V87. -/
theorem test_timerAdvance :
    timerAdvance { State.reset with dt := 5, st := 2 } = { State.reset with dt := 4, st := 1 } ∧
    timerAdvance { State.reset with st := 1 } = { State.reset with trace := [.beep] } := by decide +kernel

/-- V103. -/
theorem test_faulted_core_stops (r : FaultRecord) :
    step { State.reset with fault := some r } = .fault (.coreFaulted r) := rfl

/-- V49: with `SUBN_DEST = Vx` the destination is Vx. -/
theorem test_subn_destination : subnTarget .vx 1 2 = 1 ∧ subnTarget .vy 1 2 = 2 := by decide

/-- The bytes a store writes back to what the address reads as unlisted leave memory's list. -/
theorem test_store_is_canonical :
    (Memory.store [] 0x300 7).store 0x300 0 = [] ∧ (Memory.store [] 5 0x20) = [] ∧
    ((Memory.store [] 0x301 7).store 0x300 9) = [(0x300, 9), (0x301, 7)] := by decide

/-! ### Witnesses: states and operands that meet the hypotheses of the statements -/

theorem witness_DecodeInvertsEncode : (Instr.drw 15 15 15).wellFormed = true ∧ (Instr.shr 15).wellFormed = true := by decide

theorem witness_DecodeFollowsOpcodeTable :
    decode 0x8126 = .ok (.shr 1) ∧ (Instr.row (.shr 1) ∈ opcodeTable ∧ (Instr.row (.shr 1)).selects 0x8126 = true) ∧
    ∀ r ∈ opcodeTable, r.selects 0x0000 = false := by decide

theorem witness_OnlyShiftsIgnoreBits : decode 0x8FE6 = .ok (.shr 15) ∧ decode 0xD01F = .ok (.drw 0 1 15) := by decide

/-- A state about to add 2 to V1 in a tick. -/
def addTick : State := ready 0x7102 Keypad.idle 0 State.reset

theorem witness_StepRunsDecodedInstruction :
    addTick.fault = none ∧ nextCall addTick = .tick Keypad.idle 0 ∧ decode addTick.fetchWord = .ok (.addImm 1 2) ∧
    writesPc (.addImm 1 2) = false := ⟨rfl, rfl, by decide, rfl⟩

theorem witness_UnmatchedWordFaults :
    (ready 0x5121 Keypad.idle 0 State.reset).fault = none ∧
    nextCall (ready 0x5121 Keypad.idle 0 State.reset) = .tick Keypad.idle 0 ∧
    decode (ready 0x5121 Keypad.idle 0 State.reset).fetchWord = .error (.noPattern 0x5121) := ⟨rfl, rfl, by decide⟩

/-- A state whose host has queued some calls. -/
def queued (cs : List HostCall) (s : State) : State := { s with host := { s.host with calls := cs } }

/-- With none queued the free value says which of the two clauses applies, and nothing says which value it is. -/
theorem witness_CallsRunInHostOrder :
    (queued [.timerAdvance, .tick Keypad.idle 0] State.reset).fault = none ∧
    (queued [.timerAdvance, .tick Keypad.idle 0] State.reset).host.calls = .timerAdvance :: [.tick Keypad.idle 0] ∧
    State.reset.host.calls = [] ∧
    (Config.freeTimerAdvance State.reset.host.draws = true ∨ Config.freeTimerAdvance State.reset.host.draws = false) :=
  ⟨rfl, rfl, rfl, Bool.eq_false_or_eq_true _⟩

/-- No timer advance, and two before the next tick, the second of which beeps. -/
theorem witness_TimersMoveBetweenInstructions :
    (queued [.timerAdvance, .timerAdvance, .tick Keypad.idle 0] { State.reset with st := 2 }).fault = none ∧
    (queued [.timerAdvance, .timerAdvance, .tick Keypad.idle 0] { State.reset with st := 2 }).host.calls =
      List.replicate 2 .timerAdvance ++ [.tick Keypad.idle 0] ∧
    State.reset.host.calls = List.replicate 0 .timerAdvance ++ [] := ⟨rfl, rfl, rfl⟩

/-- A tick is the next call after a word is placed, whatever was queued; a queued tick keeps its inputs. -/
theorem test_withFetchWord_puts_a_tick_next :
    nextCall (State.reset.withFetchWord 16 0x6105) = freeTick 0 ∧
    nextCall ((queued [.timerAdvance] State.reset).withFetchWord 16 0x6105) = freeTick 0 ∧
    nextCall ((queued [.tick Keypad.idle 7] State.reset).withFetchWord 16 0x6105) = .tick Keypad.idle 7 := ⟨rfl, rfl, rfl⟩

theorem witness_PlacedWordRunsNext : decodeTableWord 16 0xD01F = some (.drw 0 1 15) := by decide

theorem witness_FaultedCoreAloneHasNoStep :
    State.reset.fault = none ∧
    { State.reset with fault := some ⟨.decodeFault, 0, 0x200⟩ }.fault = some ⟨.decodeFault, 0, 0x200⟩ := ⟨rfl, rfl⟩

theorem witness_FaultsArePrecise :
    ∃ t, step (ready 0x00EE Keypad.idle 0 State.reset) = .next t ∧ t.fault = some ⟨.stackUnderflow, 0x00EE, 0x200⟩ :=
  ⟨_, rfl, by decide⟩

/-- The premises of the statement about a state, with the conditions that hold there. -/
def TickOf (s : State) : Prop := s.fault = none ∧ nextCall s = .tick Keypad.idle 0 ∧ ∃ t, step s = .next t

theorem witness_TicksFaultExactlyOnTheirConditions :
    TickOf addTick ∧
    (TickOf (ready 0x0000 Keypad.idle 0 State.reset) ∧
      FaultCondition .decodeFault (ready 0x0000 Keypad.idle 0 State.reset).fetchWord State.reset) ∧
    (TickOf (ready 0x2300 Keypad.idle 0 (stacked 12)) ∧
      FaultCondition .stackOverflow (ready 0x2300 Keypad.idle 0 (stacked 12)).fetchWord (stacked 12)) ∧
    (TickOf (ready 0x00EE Keypad.idle 0 State.reset) ∧
      FaultCondition .stackUnderflow (ready 0x00EE Keypad.idle 0 State.reset).fetchWord State.reset) ∧
    (TickOf (ready 0xE29E Keypad.idle 0 (withRegs [(2, 16)] State.reset)) ∧
      FaultCondition .keyIndexFault (ready 0xE29E Keypad.idle 0 (withRegs [(2, 16)] State.reset)).fetchWord
        (withRegs [(2, 16)] State.reset)) :=
  ⟨⟨rfl, rfl, _, rfl⟩, ⟨⟨rfl, rfl, _, rfl⟩, .noPattern 0, by decide⟩,
    ⟨⟨rfl, rfl, _, rfl⟩, ⟨0x300, by decide⟩, rfl⟩, ⟨⟨rfl, rfl, _, rfl⟩, by decide, rfl⟩,
    ⟨⟨rfl, rfl, _, rfl⟩, 2, by decide, by decide⟩⟩

theorem witness_ResetZeroesRegisters : 0 < Config.stackCapacity ∧ 11 < Config.stackCapacity := by decide

theorem witness_BootGivesCleanLaunch :
    (List.replicate 80 (0 : Byte)).length = 80 ∧ (List.replicate 0xE00 (1 : Byte)).length ≤ 0xE00 ∧
    0xE00 < (List.replicate 0xE01 (1 : Byte)).length := by simp only [List.length_replicate]; decide

theorem witness_InvariantHoldsAtLaunch :
    Memory.wf [(0, 0xF1), (0x200, 0x12), (0xFFF, 0xFF)] = true ∧
    ∃ s, boot [0xF1] [0x12, 0x00] = some s ∧ s.mem = [(0, 0xF1), (0x200, 0x12)] := ⟨by decide, _, rfl, by decide⟩

/-- A state with memory listed meets the invariant and takes a step. -/
theorem witness_StepKeepsInvariant : addTick.Inv ∧ addTick.mem ≠ [] ∧ ∃ t, step addTick = .next t :=
  ⟨⟨by decide, (fun _ h => nomatch h), (fun _ h => nomatch h)⟩, by decide, _, rfl⟩

theorem witness_ReadsReturnLastWrite :
    ([((0x300 : Nat), (1 : Byte)), (0x1300, 2)].reverse.find? fun w => w.1 % 4096 == 0x300 % 4096) = some (0x1300, 2) ∧
    ([((0x300 : Nat), (1 : Byte))].reverse.find? fun w => w.1 % 4096 == 0x301 % 4096) = none := by decide

theorem witness_CanonicalMemoryIsUnique :
    Memory.wf [(0x300, 1)] = true ∧ ∀ a, a < 4096 → Memory.lookup [(0x300, 1)] a = Memory.lookup (Memory.store [] 0x300 1) a :=
  ⟨by decide, fun _ _ => rfl⟩

theorem witness_CallPushesReturnAddress :
    (stacked 0).sp.val < Config.stackCapacity ∧ (stacked 11).sp.val < Config.stackCapacity := by decide

theorem witness_RetPopsReturnAddress : 0 < (stacked 1).sp.val ∧ 0 < (stacked 12).sp.val := by decide

theorem witness_StackFaultsAreRecorded : (stacked 12).sp.val = Config.stackCapacity ∧ (stacked 0).sp.val = 0 := by decide

theorem witness_RetUndoesCall :
    (stacked 11).sp.val < Config.stackCapacity ∧
    ∃ t u, exec (.call 0x300) (stacked 11) = .next t ∧ u = { t with pc := 0x310 } ∧ u.stack = t.stack ∧ u.sp = t.sp :=
  ⟨by decide, _, _, rfl, rfl, rfl, rfl⟩

theorem witness_StackIsLastInFirstOut :
    (stacked 0).sp.val + (List.replicate 12 (0x206 : Word)).length ≤ Config.stackCapacity ∧
    Config.stackCapacity < (stacked 0).sp.val + (List.replicate 13 (0x206 : Word)).length ∧
    Config.stackCapacity < (stacked 12).sp.val + [(0x206 : Word)].length := by decide

/-- Each of the six ways a compare skips. -/
theorem witness_SkippedWordIsNotDecoded :
    (decode (ready 0x332A Keypad.idle 0 State.reset).fetchWord = .ok (.seImm 3 0x2A) ∧
      (withRegs [(3, 0x2A)] State.reset).reg 3 = 0x2A) ∧
    (decode (ready 0x432A Keypad.idle 0 State.reset).fetchWord = .ok (.sneImm 3 0x2A) ∧ State.reset.reg 3 ≠ 0x2A) ∧
    (decode (ready 0x5120 Keypad.idle 0 State.reset).fetchWord = .ok (.seReg 1 2) ∧
      State.reset.reg 1 = State.reset.reg 2) ∧
    (decode (ready 0x9120 Keypad.idle 0 State.reset).fetchWord = .ok (.sneReg 1 2) ∧
      (withRegs [(1, 7)] State.reset).reg 1 ≠ (withRegs [(1, 7)] State.reset).reg 2) ∧
    (decode (ready 0xE29E (keypadWith 15 none) 0 State.reset).fetchWord = .ok (.skp 2) ∧
      ((withRegs [(2, 15)] State.reset).reg 2).toNat < 16 ∧ (keypadWith 15 none).down[15] = true) ∧
    (decode (ready 0xE2A1 Keypad.idle 0 State.reset).fetchWord = .ok (.sknp 2) ∧
      (State.reset.reg 2).toNat < 16 ∧ Keypad.idle.down[0] = false) ∧
    nextCall (ready 0xE29E (keypadWith 15 none) 0 State.reset) = .tick (keypadWith 15 none) 0 ∧
    (ready 0xE29E (keypadWith 15 none) 0 State.reset).fault = none :=
  ⟨by decide, by decide, by decide, by decide, by decide, by decide, rfl, rfl⟩

/-- A program that ends at 0x200. -/
def ended : State := ready 0x1200 Keypad.idle 0 State.reset

theorem witness_EndedProgramStaysEnded : EndedAt 0x200 ended ∧ nextCall ended = .tick Keypad.idle 0 :=
  ⟨⟨rfl, by decide, by decide⟩, rfl⟩

theorem witness_flags_with_destination_not_vf : (0 : Reg) ≠ vf ∧ (14 : Reg) ≠ vf := by decide

theorem witness_BitwiseOperations : (0 : Nat) < 8 ∧ (7 : Nat) < 8 := by decide

theorem witness_RndMasksTheDraw : (0xF0 : Byte).getLsbD 0 = false ∧ (0xF0 : Byte).getLsbD 8 = false := by decide

/-- The bytes a transfer stores, at the end of memory, and a byte outside them. -/
theorem witness_transfers :
    (∀ k, k < 3 → 0x300 % Config.memSize ≠ memAddr 0xFFF k) ∧ memAddr 0xFFF 1 = 0 ∧
    (0 : Reg).val ≤ (15 : Reg).val ∧ (15 : Reg).val ≤ (15 : Reg).val ∧ (0 : Reg).val < (1 : Reg).val := by decide

theorem witness_StoreThenLoadRestoresRegisters :
    ∃ t u, exec (.storeRegs 2) State.reset = .next t ∧ u = withRegs [(0, 9)] t ∧ u.mem = t.mem ∧ u.i = State.reset.i :=
  ⟨_, _, rfl, rfl, rfl, rfl⟩

/-- A sprite of 15 rows from row 20, a pixel under it, and one that is not. -/
theorem witness_DrwDrawsSprite :
    (Instr.drw 0 1 15).wellFormed = true ∧ (Instr.drw 0 1 0).wellFormed = true ∧
    (∃ r c, r < 15 ∧ c < 8 ∧ (20 + r) % 32 = 2 ∧ (60 + c) % 64 = 3) ∧
    ∀ r, r < 15 → ∀ c, c < 8 → ¬((20 + r) % 32 = 3 ∧ (60 + c) % 64 = 3) := by
  refine ⟨by decide, by decide, ⟨14, 7, by decide⟩, by decide⟩

theorem witness_DrawTwiceRestoresDisplay :
    (Instr.drw vf 1 1).wellFormed = true ∧
    ∃ t, exec (.drw vf 1 1) State.reset = .next t ∧ ∃ u, u = withRegs [(0, State.reset.reg vf)] t ∧
      u.fb = t.fb ∧ u.mem = t.mem ∧ u.i = t.i ∧ u.reg 0 = State.reset.reg vf ∧ u.reg 1 = State.reset.reg 1 :=
  ⟨by decide, _, rfl, _, rfl, rfl, rfl, rfl, rfl, rfl⟩

theorem witness_TimerAdvanceCountsDown :
    (queued [.timerAdvance] { State.reset with dt := 5, st := 1 }).fault = none ∧
    nextCall (queued [.timerAdvance] { State.reset with dt := 5, st := 1 }) = .timerAdvance := ⟨rfl, rfl⟩

theorem witness_BeepOncePerActivation :
    nextCall addTick = .tick Keypad.idle 0 ∧ ∃ t, step addTick = .next t := ⟨rfl, _, rfl⟩

theorem witness_key_operands :
    ((withRegs [(2, 15)] State.reset).reg 2).toNat < 16 ∧ 15 < ((withRegs [(2, 16)] State.reset).reg 2).toNat := by decide

theorem witness_KeyWaitPolls :
    (bringInputs (keypadWith 0 (some 15)) 0 State.reset).host.keypad.last = some 15 ∧
    State.reset.host.keypad.last = none ∧
    ((ready 0xF30A Keypad.idle 0 State.reset).fault = none ∧
      nextCall (ready 0xF30A Keypad.idle 0 State.reset) = .tick Keypad.idle 0 ∧
      decode (ready 0xF30A Keypad.idle 0 State.reset).fetchWord = .ok (.ldVxK 3) ∧ Keypad.idle.last = none) :=
  ⟨rfl, rfl, rfl, rfl, by decide, rfl⟩

theorem witness_OnlyDestinationsAndFlagsChange :
    ∃ t, exec (.addReg 1 2) State.reset = .next t ∧ writesReg (.addReg 1 2) 2 = false ∧ (2 : Reg) ≠ vf :=
  ⟨_, rfl, by decide, by decide⟩

theorem witness_OnlyNamedInstructionsChangeEachPart :
    ∃ t, exec (.ldImm 1 2) State.reset = .next t ∧ writesPc (.ldImm 1 2) = false := ⟨_, rfl, rfl⟩

end Sys2Proof.Tests
end

section
/-! Writes to the register file as frames, and the two clash orders with `VF_CLASH = either` (R12, R152). -/

namespace Sys2Proof.Machine

/-- A register write changes no part of the state but its register. -/
theorem onlyRegsChange_setReg (s : State) (r : Reg) (b : Byte) : OnlyRegsChange [r] s (s.setReg r b) := by
  refine ⟨fun q hq => reg_setReg_other s b ?_, fun adr => setReg_memRead s r b adr, setReg_eq s r b⟩
  simpa using hq

/-! ### A clash: one write of VF, with the value the draw picks -/

theorem resultThenFlag_either_clash (a f : Byte) (s : State) :
    resultThenFlag .either vf a f s = s.setReg vf (if Config.freeClash s.host.draws then a else f) := by
  simp only [resultThenFlag, if_true]

theorem flagThenShift_either_clash (f : Byte) (g : Byte → Byte) (s : State) :
    flagThenShift .either vf f g s = s.setReg vf (if Config.freeClash s.host.draws then f else g f) := by
  simp only [flagThenShift, if_true]

/-! ### No clash: the order of the two writes does not show -/

theorem resultThenFlag_either_of_ne {d : Reg} (h : d ≠ vf) (a f : Byte) (s : State) :
    resultThenFlag .either d a f s = resultThenFlag .textOrder d a f s :=
  if_neg h

/-- The text order reads the shifted register after the flag is written, which leaves a register other than VF as it was. -/
theorem flagThenShift_either_of_ne {d : Reg} (h : d ≠ vf) (f : Byte) (g : Byte → Byte) (s : State) :
    flagThenShift .either d f g s = flagThenShift .textOrder d f g s := by
  have hread : (s.setReg vf f).reg d = s.reg d := reg_setReg_other s f h
  simp only [flagThenShift, if_neg h, hread]

/-- Settles O42: a clash is a single write of VF with one of the two values (R152), and without one the flag's write is not
seen by the destination's. -/
theorem eitherClashLeavesOneOfTheTwoWrites : Obligations.EitherClashLeavesOneOfTheTwoWrites := by
  intro d a f g s
  rw [resultThenFlag_either_clash, flagThenShift_either_clash, reg_setReg_same, reg_setReg_same]
  exact ⟨ite_eq_or_eq _ a f, ite_eq_or_eq _ f (g f), onlyRegsChange_setReg s vf _, onlyRegsChange_setReg s vf _,
    fun h => ⟨resultThenFlag_either_of_ne h a f s, flagThenShift_either_of_ne h f g s⟩⟩

end Sys2Proof.Machine
end

section
/-! Launch (R40 to R43, R231 to R233): the reset state, and the invariant over every launch memory. -/

namespace Sys2Proof.Machine

/-- Settles O15: the registers and the stack are vectors of zeros, and the other parts are given their values (R40). -/
theorem resetZeroesRegisters : Obligations.ResetZeroesRegisters := by
  refine ⟨rfl, fun r => ?_, rfl, rfl, rfl, rfl, fun k h => ?_⟩
  · simp [State.reg, State.reset, Vector.get_eq_getElem]
  · simp [State.reset]

/-- Settles O16: the framebuffer at reset is the cleared one (R41). -/
theorem resetClearsDisplayAndRecords : Obligations.ResetClearsDisplayAndRecords :=
  ⟨pixel_clear, rfl, rfl⟩

/-- Without a fault recorded the invariant says only that memory is canonical. -/
theorem inv_of_no_fault {s : State} (hm : s.mem.wf = true) (hf : s.fault = none) : s.Inv where
  memoryCanonical := hm
  faultPrecise r hr := by simp [hf] at hr
  faultExplained r hr := by simp [hf] at hr

theorem inv_launch {m : Memory} (hm : m.wf = true) : (State.launch m).Inv := inv_of_no_fault hm rfl

theorem storeBytes_fault (s : State) (base : Word) (k : Nat) (us : List Byte) :
    (s.storeBytes base k us).fault = s.fault := by
  rw [storeBytes_eq]

/-- What boot leaves is a launch with the font and the ROM stored into its memory (R232). -/
theorem boot_eq_some {font rom : List Byte} {s : State} (h : boot font rom = some s) :
    s = ((State.launch []).storeBytes 0 0 font).storeBytes (BitVec.ofNat 16 Config.romBase) 0 rom := by
  unfold boot at h
  split at h
  · exact (Option.some.inj h).symm
  · cases h

theorem inv_boot {font rom : List Byte} {s : State} (h : boot font rom = some s) : s.Inv := by
  rw [boot_eq_some h]
  exact inv_of_no_fault (wf_storeBytes _ _ _ _ (wf_storeBytes _ _ _ _ rfl))
    ((storeBytes_fault _ _ _ _).trans (storeBytes_fault _ _ _ _))

/-- Settles O18: no launch state has a fault recorded, and the loader's stores keep memory canonical. -/
theorem invariantHoldsAtLaunch : Obligations.InvariantHoldsAtLaunch :=
  ⟨inv_launch (m := []) rfl, fun _ => inv_launch, fun _ _ _ => inv_boot⟩

end Sys2Proof.Machine
end

section
/-! The canonical form of memory (log 15) is unique. -/

namespace Sys2Proof.Machine

/-- A canonical memory lists no address outside the address space (R50). -/
theorem lookup_of_wf_of_memSize_le {m : Memory} (hm : m.wf = true) {a : Nat} (ha : Config.memSize ≤ a) :
    m.lookup a = unlistedByte a := by
  refine lookup_of_unlisted m a fun c hc hca => ?_
  have hlt := (((wf_iff m).mp hm).1 c hc).1
  omega

/-- Canonical memories that agree inside the address space agree everywhere. -/
theorem lookup_eq_of_wf {m n : Memory} (hm : m.wf = true) (hn : n.wf = true)
    (h : ∀ a, a < Config.memSize → m.lookup a = n.lookup a) (a : Nat) : m.lookup a = n.lookup a := by
  rcases Nat.lt_or_ge a Config.memSize with ha | ha
  · exact h a ha
  · rw [lookup_of_wf_of_memSize_le hm ha, lookup_of_wf_of_memSize_le hn ha]

/-- Settles O22: the two memories list the same cells, at strictly rising addresses. -/
theorem canonicalMemoryIsUnique : Obligations.CanonicalMemoryIsUnique := by
  intro m n hm hn h
  have hall := lookup_eq_of_wf hm hn h
  exact eq_of_pairwise_of_mem ((wf_iff m).mp hm).2 ((wf_iff n).mp hn).2 fun c =>
    ⟨mem_of_lookup_eq hm hall, mem_of_lookup_eq hn fun a => (hall a).symm⟩

end Sys2Proof.Machine
end

section
/-! Which parts of the state each instruction can change (R23 to R36, R55): one frame for every instruction, said once. -/

namespace Sys2Proof.Machine

/-- `s` with the parts that instruction `i` may write taken from `t`. -/
def withPartsOf (i : Instr) (s t : State) : State :=
  match i with
  | .cls => { s with fb := t.fb }
  | .drw _ _ _ => { s with v := t.v, fb := t.fb }
  | .ret => { s with pc := t.pc, sp := t.sp, fault := t.fault }
  | .call _ => { s with pc := t.pc, sp := t.sp, stack := t.stack, fault := t.fault }
  | .skp _ | .sknp _ => { s with pc := t.pc, fault := t.fault }
  | .jp _ | .jpV0 _ | .seImm _ _ | .sneImm _ _ | .seReg _ _ | .sneReg _ _ => { s with pc := t.pc }
  | .ldI _ | .addI _ | .ldF _ => { s with i := t.i }
  | .ldDT _ => { s with dt := t.dt }
  | .ldST _ => { s with st := t.st }
  | .ldB _ | .storeRegs _ => { s with mem := t.mem }
  | .ldVxK _ => { s with v := t.v, pc := t.pc }
  | .ldImm _ _ | .addImm _ _ | .ldReg _ _ | .or _ _ | .and _ _ | .xor _ _ | .addReg _ _ | .sub _ _ => { s with v := t.v }
  | .shr _ | .subn _ _ | .shl _ | .rnd _ _ | .ldVxDT _ | .loadRegs _ => { s with v := t.v }

/-- An instruction changes no part of the state but those `withPartsOf` names, whether it completes or faults. -/
theorem exec_eq_withPartsOf {i : Instr} {s t : State} (h : exec i s = .next t) : t = withPartsOf i s t := by
  cases i with
  | ret =>
    rcases pop_cases s with ⟨hk, hpos, -⟩ | ⟨hempty, -⟩
    · cases (execRet_ok s hpos hk).symm.trans h; rfl
    · cases (execRet_empty s hempty).symm.trans h; rfl
  | call nnn =>
    rcases push_cases s.pc s with ⟨hroom, -⟩ | ⟨hfull, -⟩
    · cases (execCall_ok nnn s hroom).symm.trans h; rfl
    · cases (execCall_full nnn s hfull).symm.trans h; rfl
  | skp x =>
    rcases keyIndex_cases (s.reg x) with ⟨hkey, -⟩ | ⟨habove, -⟩
    · cases (execSkp_ok x s hkey).symm.trans h; rfl
    · cases (execSkp_fault x s habove).symm.trans h; rfl
  | sknp x =>
    rcases keyIndex_cases (s.reg x) with ⟨hkey, -⟩ | ⟨habove, -⟩
    · cases (execSknp_ok x s hkey).symm.trans h; rfl
    · cases (execSknp_fault x s habove).symm.trans h; rfl
  | addReg x y | sub x y | subn x y => cases h; exact resultThenFlag_eq _ _ _ _ _
  | shr x | shl x => cases h; exact flagThenShift_eq _ _ _ _ _
  | loadRegs x => cases h; exact loadLoop_eq _ _ _
  | ldB x | storeRegs x => cases h; exact storeBytes_eq _ _ _ _
  | _ => cases h; rfl

/-! ### What the frame keeps, part by part -/

section
variable {i : Instr} (s t : State)

theorem withPartsOf_i (hn : (∀ nnn, i ≠ .ldI nnn) ∧ (∀ x, i ≠ .addI x) ∧ ∀ x, i ≠ .ldF x) :
    (withPartsOf i s t).i = s.i := by
  obtain ⟨hldI, haddI, hldF⟩ := hn
  cases i with
  | ldI nnn => exact absurd rfl (hldI nnn)
  | addI x => exact absurd rfl (haddI x)
  | ldF x => exact absurd rfl (hldF x)
  | _ => rfl

theorem withPartsOf_pc (hn : writesPc i = false) : (withPartsOf i s t).pc = s.pc := by
  cases i with
  | ret | jp nnn | call nnn | seImm x kk | sneImm x kk | seReg x y | sneReg x y | jpV0 nnn | skp x | sknp x | ldVxK x =>
    exact Bool.noConfusion hn
  | _ => rfl

theorem withPartsOf_dt (hn : ∀ x, i ≠ .ldDT x) : (withPartsOf i s t).dt = s.dt := by
  cases i with
  | ldDT x => exact absurd rfl (hn x)
  | _ => rfl

theorem withPartsOf_st (hn : ∀ x, i ≠ .ldST x) : (withPartsOf i s t).st = s.st := by
  cases i with
  | ldST x => exact absurd rfl (hn x)
  | _ => rfl

theorem withPartsOf_sp (hn : i ≠ .ret ∧ ∀ nnn, i ≠ .call nnn) : (withPartsOf i s t).sp = s.sp := by
  cases i with
  | ret => exact absurd rfl hn.1
  | call nnn => exact absurd rfl (hn.2 nnn)
  | _ => rfl

theorem withPartsOf_stack (hn : ∀ nnn, i ≠ .call nnn) : (withPartsOf i s t).stack = s.stack := by
  cases i with
  | call nnn => exact absurd rfl (hn nnn)
  | _ => rfl

theorem withPartsOf_fb (hn : i ≠ .cls ∧ ∀ x y n, i ≠ .drw x y n) : (withPartsOf i s t).fb = s.fb := by
  cases i with
  | cls => exact absurd rfl hn.1
  | drw x y n => exact absurd rfl (hn.2 x y n)
  | _ => rfl

theorem withPartsOf_mem (hn : (∀ x, i ≠ .ldB x) ∧ ∀ x, i ≠ .storeRegs x) : (withPartsOf i s t).mem = s.mem := by
  cases i with
  | ldB x => exact absurd rfl (hn.1 x)
  | storeRegs x => exact absurd rfl (hn.2 x)
  | _ => rfl

theorem withPartsOf_fault
    (hn : i ≠ .ret ∧ (∀ nnn, i ≠ .call nnn) ∧ (∀ x, i ≠ .skp x) ∧ ∀ x, i ≠ .sknp x) :
    (withPartsOf i s t).fault = s.fault := by
  obtain ⟨hret, hcall, hskp, hsknp⟩ := hn
  cases i with
  | ret => exact absurd rfl hret
  | call nnn => exact absurd rfl (hcall nnn)
  | skp x => exact absurd rfl (hskp x)
  | sknp x => exact absurd rfl (hsknp x)
  | _ => rfl

variable (i)

theorem withPartsOf_trace : (withPartsOf i s t).trace = s.trace := by cases i <;> rfl

theorem withPartsOf_host : (withPartsOf i s t).host = s.host := by cases i <;> rfl

end

/-- Settles O60: the state after an instruction is `withPartsOf`, which keeps each part for every instruction the rules do
not name. -/
theorem onlyNamedInstructionsChangeEachPart : Obligations.OnlyNamedInstructionsChangeEachPart := by
  intro i s t h
  rw [exec_eq_withPartsOf h]
  exact ⟨withPartsOf_i s t, withPartsOf_pc s t, withPartsOf_dt s t, withPartsOf_st s t, withPartsOf_sp s t,
    withPartsOf_stack s t, withPartsOf_fb s t, fun hn => memRead_eq_of_mem_eq (withPartsOf_mem s t hn),
    withPartsOf_fault s t, withPartsOf_trace i s t, withPartsOf_host i s t⟩

/-! ### The general registers (R23, R24) -/

theorem reg_resultThenFlag_textOrder_other {d r : Reg} (a f : Byte) (s : State) (hd : r ≠ d) (hv : r ≠ vf) :
    (resultThenFlag .textOrder d a f s).reg r = s.reg r := by
  rw [reg_resultThenFlag_textOrder, if_neg hv, if_neg hd]

theorem reg_flagThenShift_textOrder_other {x r : Reg} (f : Byte) (g : Byte → Byte) (s : State) (hx : r ≠ x)
    (hv : r ≠ vf) : (flagThenShift .textOrder x f g s).reg r = s.reg r := by
  rw [reg_flagThenShift_textOrder, if_neg hx, if_neg hv]

/-- A poll of the key wait writes no register but the one named (R187). -/
theorem reg_pollKey_other {x r : Reg} (s : State) (hx : r ≠ x) : (pollKey x s).reg r = s.reg r := by
  cases hk : s.host.keypad.last with
  | none => simp only [State.reg, pollKey, hk]
  | some k =>
    simp only [State.reg, pollKey, hk]
    exact reg_setReg_other s _ hx

/-- `LD Vx,[I]` writes no register above Vx (R165). -/
theorem reg_loadLoop_above {x r : Reg} (s : State) (h : x.val < r.val) : (loadLoop (x.val + 1) 0 s).reg r = s.reg r := by
  have hx := x.isLt
  rw [reg_loadLoop _ _ _ (by omega), if_neg (by omega)]

/-- Settles O59: the instructions that write registers are split by what they write (one register, a result and a flag, the
flag alone, V0 to Vx); every other instruction keeps the whole register file by `exec_eq_withPartsOf`. -/
theorem onlyDestinationsAndFlagsChange : Obligations.OnlyDestinationsAndFlagsChange := by
  intro i s t r h hr hf
  cases i with
  | ldImm x kk | addImm x kk | rnd x kk | ldReg x y | or x y | and x y | xor x y | ldVxDT x =>
    have hx : r ≠ x := beq_eq_false_iff_ne.mp hr
    cases h
    exact reg_setReg_other s _ hx
  | addReg x y | sub x y | subn x y =>
    have hv : r ≠ vf := hf.resolve_left Bool.noConfusion
    cases h
    exact reg_resultThenFlag_textOrder_other _ _ s (beq_eq_false_iff_ne.mp hr) hv
  | shr x | shl x =>
    have hv : r ≠ vf := hf.resolve_left Bool.noConfusion
    cases h
    exact reg_flagThenShift_textOrder_other _ _ s (beq_eq_false_iff_ne.mp hr) hv
  | drw x y n =>
    have hv : r ≠ vf := hf.resolve_left Bool.noConfusion
    cases h
    exact reg_setReg_other _ _ hv
  | ldVxK x =>
    cases h
    exact reg_pollKey_other s (beq_eq_false_iff_ne.mp hr)
  | loadRegs x =>
    cases h
    exact reg_loadLoop_above s (Nat.lt_of_not_le (of_decide_eq_false hr))
  | _ => exact reg_eq_of_v_eq (congrArg State.v (exec_eq_withPartsOf h)) r

end Sys2Proof.Machine
end

section
/-! Memory and the fetch (R54, R57, R62): what the fetch composes, and a read after any sequence of writes. -/

namespace Sys2Proof.Machine

/-- The fetch in terms of reads: the bytes at pc and pc + 1, big-endian (R54). -/
theorem toNat_fetchWord (s : State) :
    s.fetchWord.toNat = (s.memRead s.pc.toNat).toNat * 256 + (s.memRead (s.pc.toNat + 1)).toNat := by
  have hhi : s.memRead (memAddr s.pc 0) = s.memRead s.pc.toNat := memRead_mod s s.pc.toNat
  have hlo : s.memRead (memAddr s.pc 1) = s.memRead (s.pc.toNat + 1) := memRead_mod s (s.pc.toNat + 1)
  rw [State.fetchWord, State.wordAt, toNat_bigEndian, hhi, hlo]

/-- Settles O5: a read is a lookup at the address modulo 4096 (R52). -/
theorem fetchIsBigEndian : Obligations.FetchIsBigEndian := toNat_fetchWord

theorem memRead_memWrite_same (s : State) (a : Nat) (u : Byte) : (s.memWrite a u).memRead a = u := by
  rw [memRead_memWrite, if_pos rfl]

theorem memRead_memWrite_other {a b : Nat} (s : State) (u : Byte) (h : b % Config.memSize ≠ a % Config.memSize) :
    (s.memWrite a u).memRead b = s.memRead b := by
  rw [memRead_memWrite, if_neg h]

/-- Settles O21: the addresses of the two bytes differ modulo 4096, so the second store leaves the first. -/
theorem fetchSeesStores : Obligations.FetchSeesStores := by
  intro s hi lo
  have hne : s.pc.toNat % Config.memSize ≠ (s.pc.toNat + 1) % Config.memSize := by
    simp only [Config.memSize]; omega
  rw [toNat_fetchWord, memWrite_pc, memWrite_pc, memRead_memWrite_same, memRead_memWrite_other _ lo hne,
    memRead_memWrite_same]

/-! ### Sequences of writes -/

theorem writeAll_concat (ws : List (Nat × Byte)) (w : Nat × Byte) (s : State) :
    writeAll (ws ++ [w]) s = (writeAll ws s).memWrite w.1 w.2 := by
  induction ws generalizing s with
  | nil => rfl
  | cons v ws ih => exact ih _

/-- Writes change memory alone. -/
theorem writeAll_eq (ws : List (Nat × Byte)) (s : State) : writeAll ws s = { s with mem := (writeAll ws s).mem } := by
  induction ws generalizing s with
  | nil => rfl
  | cons w ws ih => exact ih _

/-- Settles O20, by induction on the writes from the last to the first: the last one decides the read, or leaves it to those
before it. -/
theorem readsReturnLastWrite : Obligations.ReadsReturnLastWrite := by
  intro s ws b
  refine ⟨?_, writeAll_eq ws s⟩
  induction ws using List.reverseRecOn with
  | nil => rfl
  | append_singleton ws w ih =>
    rw [writeAll_concat, List.reverse_concat, List.find?_cons]
    by_cases hb : w.1 % 4096 = b % 4096
    · rw [beq_iff_eq.mpr hb, memRead_memWrite, if_pos hb.symm]
    · rw [beq_eq_false_iff_ne.mpr hb, memRead_memWrite_other _ _ (Ne.symm hb), ih]

end Sys2Proof.Machine
end

section
/-! Every step keeps the invariant: memory stays canonical, and a fault that a step records is precise and explained. -/

namespace Sys2Proof.Machine

/-- A step with a next state was taken with no fault recorded (R202). -/
theorem fault_eq_none_of_step {s t : State} (h : step s = .next t) : s.fault = none := by
  cases hf : s.fault with
  | none => rfl
  | some r => cases (step_of_fault hf).symm.trans h

/-- The fault an instruction raises has its condition of R200. -/
theorem faultCondition_of_faultRaised {w : Word} {i : Instr} {s : State} {c : FaultCause} (hd : decode w = .ok i)
    (h : faultRaised i s = some c) : FaultCondition c w s := by
  cases i with
  | ret =>
    obtain ⟨hsp, ⟨⟩⟩ := Option.ite_none_right_eq_some.mp h
    exact ⟨hd, hsp⟩
  | call nnn =>
    obtain ⟨hsp, ⟨⟩⟩ := Option.ite_none_right_eq_some.mp h
    exact ⟨⟨nnn, hd⟩, hsp⟩
  | skp x =>
    obtain ⟨hx, ⟨⟩⟩ := Option.ite_none_right_eq_some.mp h
    exact ⟨x, Or.inl hd, hx⟩
  | sknp x =>
    obtain ⟨hx, ⟨⟩⟩ := Option.ite_none_right_eq_some.mp h
    exact ⟨x, Or.inr hd, hx⟩
  | _ => cases h

/-- The conditions of R200 look at the stack pointer and the general registers alone. -/
theorem faultCondition_of_eq {c : FaultCause} {w : Word} {s t : State} (hsp : t.sp = s.sp) (hv : t.v = s.v)
    (h : FaultCondition c w s) : FaultCondition c w t := by
  cases c with
  | decodeFault => exact h
  | stackOverflow | stackUnderflow => exact ⟨h.1, hsp ▸ h.2⟩
  | keyIndexFault =>
    obtain ⟨x, hd, hx⟩ := h
    exact ⟨x, hd, (reg_eq_of_v_eq hv x).symm ▸ hx⟩

/-- Recording the fetched word, its address and a cause whose condition holds keeps the invariant (R105, R201). -/
theorem inv_record_fault {s : State} {c : FaultCause} (host : HostInputs) (hm : s.mem.wf = true)
    (hc : FaultCondition c s.fetchWord s) :
    State.Inv { s with fault := some ⟨c, s.fetchWord, s.pc⟩, host := host } where
  memoryCanonical := hm
  faultPrecise r hr := by cases hr; exact ⟨rfl, rfl⟩
  faultExplained r hr := by cases hr; exact faultCondition_of_eq rfl rfl hc

/-- The cause a tick records is explained by the state before it: the advance of pc and the inputs touch neither the stack
pointer nor a register. -/
theorem faultCondition_of_tick {s : State} {k : Keypad} {b : Byte} {c : FaultCause}
    (h : (c = .decodeFault ∧ ∃ e, decode s.fetchWord = .error e) ∨
      ∃ i, decode s.fetchWord = .ok i ∧ faultRaised i (tickState k b s) = some c) : FaultCondition c s.fetchWord s := by
  rcases h with ⟨rfl, hd⟩ | ⟨i, hd, hf⟩
  · exact hd
  · exact faultCondition_of_eq (s := tickState k b s) rfl rfl (faultCondition_of_faultRaised hd hf)

/-- Settles O19, by the cases of `runCall_cases`: a timer advance and a completed instruction leave no fault recorded and
memory canonical, and a faulting tick changes the record alone. -/
theorem stepKeepsInvariant : Obligations.StepKeepsInvariant := by
  intro s t hs h
  have hnone := fault_eq_none_of_step h
  rw [step_of_no_fault hnone] at h
  rcases runCall_cases s with ⟨-, hr⟩ | ⟨k, b, -, ⟨i, -, -, hcompletes, hr⟩ | ⟨c, hr, hcause⟩⟩
  · cases hr.symm.trans h
    exact inv_of_no_fault hs.memoryCanonical hnone
  · obtain ⟨u, hexec, hfault, -, -, hwf⟩ := hcompletes
    cases (hr.trans hexec).symm.trans h
    exact inv_of_no_fault (hwf hs.memoryCanonical) (hfault.trans hnone)
  · cases hr.symm.trans h
    exact inv_record_fault _ hs.memoryCanonical (faultCondition_of_tick hcause)

end Sys2Proof.Machine
end

section
/-! The decoder against the opcode table (R75 to R78, R81): a word that selects an instruction's row decodes to that
instruction with the word's own fields as operands, and nothing else decodes. -/

namespace Sys2Proof

/-- The instruction of `i`'s row whose operands are the fields of `w` (R72). -/
def Instr.withFieldsOf (w : Word) : Instr → Instr
  | .cls => .cls
  | .ret => .ret
  | .jp _ => .jp (fieldNNN w)
  | .call _ => .call (fieldNNN w)
  | .seImm _ _ => .seImm (fieldX w) (fieldKK w)
  | .sneImm _ _ => .sneImm (fieldX w) (fieldKK w)
  | .seReg _ _ => .seReg (fieldX w) (fieldY w)
  | .ldImm _ _ => .ldImm (fieldX w) (fieldKK w)
  | .addImm _ _ => .addImm (fieldX w) (fieldKK w)
  | .ldReg _ _ => .ldReg (fieldX w) (fieldY w)
  | .or _ _ => .or (fieldX w) (fieldY w)
  | .and _ _ => .and (fieldX w) (fieldY w)
  | .xor _ _ => .xor (fieldX w) (fieldY w)
  | .addReg _ _ => .addReg (fieldX w) (fieldY w)
  | .sub _ _ => .sub (fieldX w) (fieldY w)
  | .shr _ => .shr (fieldX w)
  | .subn _ _ => .subn (fieldX w) (fieldY w)
  | .shl _ => .shl (fieldX w)
  | .sneReg _ _ => .sneReg (fieldX w) (fieldY w)
  | .ldI _ => .ldI (fieldNNN w)
  | .jpV0 _ => .jpV0 (fieldNNN w)
  | .rnd _ _ => .rnd (fieldX w) (fieldKK w)
  | .drw _ _ _ => .drw (fieldX w) (fieldY w) (fieldN w)
  | .skp _ => .skp (fieldX w)
  | .sknp _ => .sknp (fieldX w)
  | .ldVxDT _ => .ldVxDT (fieldX w)
  | .ldVxK _ => .ldVxK (fieldX w)
  | .ldDT _ => .ldDT (fieldX w)
  | .ldST _ => .ldST (fieldX w)
  | .addI _ => .addI (fieldX w)
  | .ldF _ => .ldF (fieldX w)
  | .ldB _ => .ldB (fieldX w)
  | .storeRegs _ => .storeRegs (fieldX w)
  | .loadRegs _ => .loadRegs (fieldX w)

@[simp] theorem row_withFieldsOf (w : Word) (i : Instr) : (i.withFieldsOf w).row = i.row := by
  cases i <;> rfl

theorem fieldN_lt (w : Word) : fieldN w < 16 := (nibble w 0).isLt

theorem wellFormed_withFieldsOf (w : Word) (i : Instr) : (i.withFieldsOf w).wellFormed = true := by
  cases i with
  | drw x y n => exact decide_eq_true (fieldN_lt w)
  | _ => rfl

/-- Encoding a well-formed instruction puts its operands in their fields. -/
theorem withFieldsOf_encode {i : Instr} (h : i.wellFormed = true) : i.withFieldsOf (encode i) = i := by
  cases i with
  | cls | ret => rfl
  | jp nnn | call nnn | ldI nnn | jpV0 nnn => simp only [Instr.withFieldsOf, encode, fieldNNN_wordA]
  | seImm x kk | sneImm x kk | ldImm x kk | addImm x kk | rnd x kk =>
    simp only [Instr.withFieldsOf, encode, fieldX_wordXK, fieldKK_wordXK]
  | drw x y n =>
    have hn : n % 16 = n := Nat.mod_eq_of_lt (of_decide_eq_true h)
    simp only [Instr.withFieldsOf, encode, fieldX_wordXY, fieldY_wordXY, fieldN_wordXY, BitVec.toNat_ofNat,
      Nat.reducePow, hn]
  | seReg x y | sneReg x y | ldReg x y | or x y | and x y | xor x y | addReg x y | sub x y | subn x y | shr x | shl x =>
    simp only [Instr.withFieldsOf, encode, fieldX_wordXY, fieldY_wordXY]
  | skp x | sknp x | ldVxDT x | ldVxK x | ldDT x | ldST x | addI x | ldF x | ldB x | storeRegs x | loadRegs x =>
    simp only [Instr.withFieldsOf, encode, fieldX_wordXK]

/-- `EncodingInRow`, for every instruction at once. -/
theorem selects_encode : ∀ i : Instr, i.row.selects (encode i) = true
  | .cls => Laws.EncodingInRow.cls
  | .ret => Laws.EncodingInRow.ret
  | .jp nnn => Laws.EncodingInRow.jp nnn
  | .call nnn => Laws.EncodingInRow.call nnn
  | .seImm x kk => Laws.EncodingInRow.seImm x kk
  | .sneImm x kk => Laws.EncodingInRow.sneImm x kk
  | .seReg x y => Laws.EncodingInRow.seReg x y
  | .ldImm x kk => Laws.EncodingInRow.ldImm x kk
  | .addImm x kk => Laws.EncodingInRow.addImm x kk
  | .ldReg x y => Laws.EncodingInRow.ldReg x y
  | .or x y => Laws.EncodingInRow.or x y
  | .and x y => Laws.EncodingInRow.and x y
  | .xor x y => Laws.EncodingInRow.xor x y
  | .addReg x y => Laws.EncodingInRow.addReg x y
  | .sub x y => Laws.EncodingInRow.sub x y
  | .shr x => Laws.EncodingInRow.shr x
  | .subn x y => Laws.EncodingInRow.subn x y
  | .shl x => Laws.EncodingInRow.shl x
  | .sneReg x y => Laws.EncodingInRow.sneReg x y
  | .ldI nnn => Laws.EncodingInRow.ldI nnn
  | .jpV0 nnn => Laws.EncodingInRow.jpV0 nnn
  | .rnd x kk => Laws.EncodingInRow.rnd x kk
  | .drw x y n => Laws.EncodingInRow.drw x y n
  | .skp x => Laws.EncodingInRow.skp x
  | .sknp x => Laws.EncodingInRow.sknp x
  | .ldVxDT x => Laws.EncodingInRow.ldVxDT x
  | .ldVxK x => Laws.EncodingInRow.ldVxK x
  | .ldDT x => Laws.EncodingInRow.ldDT x
  | .ldST x => Laws.EncodingInRow.ldST x
  | .addI x => Laws.EncodingInRow.addI x
  | .ldF x => Laws.EncodingInRow.ldF x
  | .ldB x => Laws.EncodingInRow.ldB x
  | .storeRegs x => Laws.EncodingInRow.storeRegs x
  | .loadRegs x => Laws.EncodingInRow.loadRegs x

/-! ### A row's test, in the fields of its `match` column

The `hb` of each lemma says that the column is 0 outside the mask; for a row of the table it holds by `rfl`. -/

section
variable {w b : Word} {m : String}

theorem selects_F000_iff (hb : b = wordA (nibble b 3) 0) :
    (OpcodeRow.mk m b 0xF000).selects w = true ↔ (nibble w 3).toNat = (nibble b 3).toNat :=
  selects_F000 w m b _ hb

theorem selects_F00F_iff (hb : b = wordXY (nibble b 3) 0 0 (nibble b 0)) :
    (OpcodeRow.mk m b 0xF00F).selects w = true ↔ (nibble w 3).toNat = (nibble b 3).toNat ∧ fieldN w = fieldN b :=
  selects_F00F w m b _ _ hb

theorem selects_F0FF_iff (hb : b = wordXK (nibble b 3) 0 (fieldKK b)) :
    (OpcodeRow.mk m b 0xF0FF).selects w = true ↔
      (nibble w 3).toNat = (nibble b 3).toNat ∧ (fieldKK w).toNat = (fieldKK b).toNat :=
  selects_F0FF w m b _ _ hb

theorem selects_FFFF_iff :
    (OpcodeRow.mk m b 0xFFFF).selects w = true ↔
      (nibble w 3).toNat = (nibble b 3).toNat ∧ (fieldNNN w).toNat = (fieldNNN b).toNat :=
  selects_FFFF w m _ _ b (word_eq_wordA b)

end

/-! ### The first nibbles with a dispatch of their own (R76) -/

section
variable {w : Word}

theorem decode_of_nibble3_0 (hd : (nibble w 3).toNat = 0x0) : decode w = decode0 w := by
  simp only [decode, hd]

theorem decode_of_nibble3_8 (hd : (nibble w 3).toNat = 0x8) : decode w = decode8 w := by
  simp only [decode, hd]

theorem decode_of_nibble3_E (hd : (nibble w 3).toNat = 0xE) : decode w = decodeE w := by
  simp only [decode, hd]

theorem decode_of_nibble3_F (hd : (nibble w 3).toNat = 0xF) : decode w = decodeF w := by
  simp only [decode, hd]

end

/-- A word that selects an instruction's row decodes to the instruction of that row with the word's fields (R75, R76). -/
theorem decode_of_selects {w : Word} {i : Instr} (h : i.row.selects w = true) : decode w = .ok (i.withFieldsOf w) := by
  cases i with
  | cls | ret =>
    obtain ⟨hd, hn⟩ := selects_FFFF_iff.mp h
    rw [decode_of_nibble3_0 hd, decode0, hn]
    rfl
  | jp | call | seImm | sneImm | ldImm | addImm | ldI | jpV0 | rnd | drw =>
    have hd := (selects_F000_iff rfl).mp h
    rw [decode, hd]
    rfl
  | seReg | sneReg =>
    obtain ⟨hd, hn⟩ := (selects_F00F_iff rfl).mp h
    rw [decode, hd]
    exact if_pos hn
  | ldReg | or | and | xor | addReg | sub | shr | subn | shl =>
    obtain ⟨hd, hn⟩ := (selects_F00F_iff rfl).mp h
    rw [decode_of_nibble3_8 hd, decode8, hn]
    rfl
  | skp | sknp =>
    obtain ⟨hd, hk⟩ := (selects_F0FF_iff rfl).mp h
    rw [decode_of_nibble3_E hd, decodeE, hk]
    rfl
  | ldVxDT | ldVxK | ldDT | ldST | addI | ldF | ldB | storeRegs | loadRegs =>
    obtain ⟨hd, hk⟩ := (selects_F0FF_iff rfl).mp h
    rw [decode_of_nibble3_F hd, decodeF, hk]
    rfl

/-! ### What the decoder can answer -/

/-- An answer to `w` by the table: an instruction whose row `w` selects, with the fields of `w`, or the refusal of `w` by
name (R75, R77). -/
inductive TableAnswer (w : Word) : Except DecodeError Instr → Prop
  | row {i : Instr} (selected : i.row.selects w = true) (operands : i.withFieldsOf w = i) : TableAnswer w (.ok i)
  | noRow : TableAnswer w (.error (.noPattern w))

section
variable {w : Word}

theorem decode0_tableAnswer (hd : (nibble w 3).toNat = 0x0) : TableAnswer w (decode0 w) := by
  unfold decode0
  split
  case h_3 => exact .noRow
  all_goals exact .row (selects_FFFF_iff.mpr ⟨hd, ‹_›⟩) rfl

theorem decode8_tableAnswer (hd : (nibble w 3).toNat = 0x8) : TableAnswer w (decode8 w) := by
  unfold decode8
  split
  case h_10 => exact .noRow
  all_goals exact .row ((selects_F00F_iff rfl).mpr ⟨hd, ‹_›⟩) rfl

theorem decodeE_tableAnswer (hd : (nibble w 3).toNat = 0xE) : TableAnswer w (decodeE w) := by
  unfold decodeE
  split
  case h_3 => exact .noRow
  all_goals exact .row ((selects_F0FF_iff rfl).mpr ⟨hd, ‹_›⟩) rfl

theorem decodeF_tableAnswer (hd : (nibble w 3).toNat = 0xF) : TableAnswer w (decodeF w) := by
  unfold decodeF
  split
  case h_10 => exact .noRow
  all_goals exact .row ((selects_F0FF_iff rfl).mpr ⟨hd, ‹_›⟩) rfl

end

/-- Every branch of the decoder answers by the table (R76). -/
theorem decode_tableAnswer (w : Word) : TableAnswer w (decode w) := by
  unfold decode
  split
  case h_1 hd => exact decode0_tableAnswer hd
  case h_6 hd | h_10 hd =>
    split
    · exact .row ((selects_F00F_iff rfl).mpr ⟨hd, ‹_›⟩) rfl
    · exact .noRow
  case h_9 hd => exact decode8_tableAnswer hd
  case h_15 hd => exact decodeE_tableAnswer hd
  case h_16 hd => exact decodeF_tableAnswer hd
  case h_17 => exact .noRow
  all_goals exact .row ((selects_F000_iff rfl).mpr ‹_›) rfl

theorem decode_eq_ok_iff {w : Word} {i : Instr} :
    decode w = .ok i ↔ i.row.selects w = true ∧ i.withFieldsOf w = i := by
  constructor
  · intro h
    cases h ▸ decode_tableAnswer w with
    | row selected operands => exact ⟨selected, operands⟩
  · rintro ⟨hs, hi⟩
    rw [decode_of_selects hs, hi]

theorem eq_noPattern_of_decode {w : Word} {e : DecodeError} (h : decode w = .error e) : e = .noPattern w := by
  cases h ▸ decode_tableAnswer w with
  | noRow => rfl

/-! ### Encode, then decode -/

theorem decode_encode {i : Instr} (h : i.wellFormed = true) : decode (encode i) = .ok i :=
  decode_eq_ok_iff.mpr ⟨selects_encode i, withFieldsOf_encode h⟩

/-- The bytes of a word decode as the word, and the bytes after them are left (R54, R70). -/
theorem decodeBytes_encodeBytes {i : Instr} (h : i.wellFormed = true) (rest : List Byte) :
    decodeBytes (encodeBytes i ++ rest) = .ok (i, rest) := by
  simp only [encodeBytes, List.cons_append, List.nil_append, decodeBytes, bigEndian_highByte_lowByte, decode_encode h]

/-- Settles O1: the encoded word selects the instruction's row and holds its operands in their fields. -/
theorem decodeInvertsEncode : Obligations.DecodeInvertsEncode :=
  fun _ h => ⟨decode_encode h, decodeBytes_encodeBytes h⟩

/-! ### The table -/

theorem row_mem_opcodeTable (i : Instr) : i.row ∈ opcodeTable := by
  cases i <;> simp [opcodeTable, rowExamples, Instr.row]

/-- Settles O2: a decoded word selects its instruction's row, a selected row decides the decoding, and a refusal names the
word. -/
theorem decodeFollowsOpcodeTable : Obligations.DecodeFollowsOpcodeTable := by
  refine fun w => ⟨fun i h => ⟨row_mem_opcodeTable i, (decode_eq_ok_iff.mp h).1⟩, fun r hr hs => ?_, fun hnone => ?_⟩
  · obtain ⟨i, -, rfl⟩ := List.mem_map.mp hr
    exact ⟨i.withFieldsOf w, decode_of_selects hs, row_withFieldsOf w i⟩
  · cases hd : decode w with
    | ok i =>
      have hs := (decode_eq_ok_iff.mp hd).1
      exact Bool.noConfusion (hs.symm.trans (hnone i.row (row_mem_opcodeTable i)))
    | error e => rw [eq_noPattern_of_decode hd]

/-! ### Decode, then encode -/

section
variable {w : Word} {d : BitVec 4}

theorem wordA_fields (hd : (nibble w 3).toNat = d.toNat) : wordA d (fieldNNN w) = w := by
  rw [← BitVec.eq_of_toNat_eq hd, ← word_eq_wordA]

theorem wordXK_fields {kk : Byte} (hd : (nibble w 3).toNat = d.toNat) (hk : (fieldKK w).toNat = kk.toNat) :
    wordXK d (fieldX w) kk = w := by
  rw [← BitVec.eq_of_toNat_eq hd, ← BitVec.eq_of_toNat_eq hk, ← word_eq_wordXK]

theorem wordXY_fields {e : BitVec 4} (hd : (nibble w 3).toNat = d.toNat) (he : fieldN w = e.toNat) :
    wordXY d (fieldX w) (fieldY w) e = w := by
  rw [← BitVec.eq_of_toNat_eq hd, ← BitVec.eq_of_toNat_eq he, ← word_eq_wordXY]

/-- With the Y field 0 instead, the word is masked by FF0F. -/
theorem wordXY_fields_zeroY {e : BitVec 4} (hd : (nibble w 3).toNat = d.toNat) (he : fieldN w = e.toNat) :
    wordXY d (fieldX w) 0 e = w &&& 0xFF0F := by
  rw [← BitVec.eq_of_toNat_eq hd, ← BitVec.eq_of_toNat_eq he, and_mask_FF0F]

end

/-- The word an instruction is encoded as after it was read from a word of its row: the same word, but for the Y field of
the shifts (R78). -/
theorem encode_withFieldsOf {w : Word} {i : Instr} (h : i.row.selects w = true) :
    encode (i.withFieldsOf w) = w ∨
      ((∃ x, i.withFieldsOf w = .shr x ∨ i.withFieldsOf w = .shl x) ∧ encode (i.withFieldsOf w) = w &&& 0xFF0F) := by
  cases i with
  | shr =>
    obtain ⟨hd, he⟩ := (selects_F00F_iff rfl).mp h
    exact .inr ⟨⟨fieldX w, .inl rfl⟩, wordXY_fields_zeroY hd he⟩
  | shl =>
    obtain ⟨hd, he⟩ := (selects_F00F_iff rfl).mp h
    exact .inr ⟨⟨fieldX w, .inr rfl⟩, wordXY_fields_zeroY hd he⟩
  | cls | ret =>
    have hw : w &&& 0xFFFF = w := BitVec.and_allOnes
    exact .inl ((beq_iff_eq.mp h).symm.trans hw)
  | jp | call | ldI | jpV0 => exact .inl (wordA_fields ((selects_F000_iff rfl).mp h))
  | seImm | sneImm | ldImm | addImm | rnd => exact .inl (wordXK_fields ((selects_F000_iff rfl).mp h) rfl)
  | skp | sknp | ldVxDT | ldVxK | ldDT | ldST | addI | ldF | ldB | storeRegs | loadRegs =>
    obtain ⟨hd, hk⟩ := (selects_F0FF_iff rfl).mp h
    exact .inl (wordXK_fields hd hk)
  | drw =>
    have hn : fieldN w = (BitVec.ofNat 4 (fieldN w)).toNat := (Nat.mod_eq_of_lt (fieldN_lt w)).symm
    exact .inl (wordXY_fields ((selects_F000_iff rfl).mp h) hn)
  | seReg | sneReg | ldReg | or | and | xor | addReg | sub | subn =>
    obtain ⟨hd, he⟩ := (selects_F00F_iff rfl).mp h
    exact .inl (wordXY_fields hd he)

/-- The word of a shift with any Y selects the shift's row and has its X field. -/
theorem decode_shift_anyY (x y : Reg) :
    decode (wordXY 0x8 x y 0x6) = .ok (.shr x) ∧ decode (wordXY 0x8 x y 0xE) = .ok (.shl x) := by
  have hd (e : BitVec 4) := congrArg BitVec.toNat (nibble3_wordXY 0x8 x y e)
  have he (e : BitVec 4) := fieldN_wordXY 0x8 x y e
  have hx (e : BitVec 4) := fieldX_wordXY 0x8 x y e
  exact ⟨decode_eq_ok_iff.mpr ⟨(selects_F00F_iff rfl).mpr ⟨hd 0x6, he 0x6⟩, congrArg Instr.shr (hx 0x6)⟩,
    decode_eq_ok_iff.mpr ⟨(selects_F00F_iff rfl).mpr ⟨hd 0xE, he 0xE⟩, congrArg Instr.shl (hx 0xE)⟩⟩

/-- Settles O3: a decoded instruction holds the fields of its word, and encoding it writes them back. -/
theorem onlyShiftsIgnoreBits : Obligations.OnlyShiftsIgnoreBits := by
  refine ⟨fun w i h => ?_, decode_shift_anyY⟩
  obtain ⟨hs, hi⟩ := decode_eq_ok_iff.mp h
  rw [← hi]
  exact ⟨wellFormed_withFieldsOf w i, encode_withFieldsOf hs⟩

/-- Settles O4: eleven closed words. -/
theorem specWordsDecode : Obligations.SpecWordsDecode := by
  unfold Obligations.SpecWordsDecode
  decide

end Sys2Proof
end

section
/-! One tick (R101 to R106, R108): what it runs, when it faults, and a skip. -/

namespace Sys2Proof.Machine

/-! ### A tick runs its word (R101, R102, R103) -/

theorem duringTick_eq_tickState (k : Keypad) (b : Byte) (s : State) : duringTick k b s = tickState k b s := rfl

theorem runWord_of_ok {w : Word} {i : Instr} (hd : decode w = .ok i) (s : State) : runWord w s = exec i s := by
  simp only [runWord, hd]

theorem runWord_of_error {w : Word} {e : DecodeError} (hd : decode w = .error e) (s : State) :
    runWord w s = raiseFault .decodeFault s := by
  simp only [runWord, hd]

section
variable {s : State} {k : Keypad} {b : Byte}

theorem step_of_tick (hf : s.fault = none) (hc : nextCall s = .tick k b) :
    step s = runWord s.fetchWord (duringTick k b s) := by
  rw [step_of_no_fault hf, runCall_of_tick hc, duringTick_eq_tickState]

theorem step_of_tick_of_decode_ok {i : Instr} (hf : s.fault = none) (hc : nextCall s = .tick k b)
    (hd : decode s.fetchWord = .ok i) : step s = exec i (duringTick k b s) :=
  (step_of_tick hf hc).trans (runWord_of_ok hd _)

/-- A fault raised inside a tick leaves the state of R105 and R201. -/
theorem raiseFault_duringTick (c : FaultCause) :
    raiseFault c (duringTick k b s) = .next (faultedTick c k b s) := by
  rw [duringTick_eq_tickState, raiseFault_tickState]
  rfl

end

/-- Settles O7: the word has no meaning to run, so the fault is raised on the advanced state. -/
theorem unmatchedWordFaults : Obligations.UnmatchedWordFaults := by
  intro s k b e hf hc hd
  rw [step_of_tick hf hc, runWord_of_error hd, raiseFault_duringTick]

/-- Every instruction that can fault can write pc (R28, R106). -/
theorem faultRaised_of_not_writesPc {i : Instr} (hn : writesPc i = false) (s : State) : faultRaised i s = none := by
  cases i with
  | ret | call nnn | skp x | sknp x => exact Bool.noConfusion hn
  | _ => rfl

/-- An instruction that does not write pc answers a next state with pc as it was (R28). -/
theorem exec_pc_of_not_writesPc {i : Instr} (hn : writesPc i = false) (s : State) :
    ∃ t, exec i s = .next t ∧ t.pc = s.pc := by
  rcases exec_cases i s with ⟨-, t, he, -⟩ | ⟨c, hc, -⟩
  · exact ⟨t, he, (congrArg State.pc (exec_eq_withPartsOf he)).trans (withPartsOf_pc s t hn)⟩
  · cases (faultRaised_of_not_writesPc hn s).symm.trans hc

/-- Settles O6: the decoded word runs on the advanced state, whose pc is already past the instruction. -/
theorem stepRunsDecodedInstruction : Obligations.StepRunsDecodedInstruction := by
  intro s k b i hf hc hd
  have hstep := step_of_tick_of_decode_ok hf hc hd
  refine ⟨hstep, fun hn => ?_⟩
  rw [hstep]
  exact exec_pc_of_not_writesPc hn (duringTick k b s)

/-! ### When a tick faults (R105, R106, R200, R203) -/

/-- The fault of a tick that fetches `w` in state `s`, if it has one: R200 as a function. -/
def tickFault (w : Word) (s : State) : Option FaultCause :=
  match decode w with
  | .ok i => faultRaised i s
  | .error _ => some .decodeFault

theorem tickFault_of_ok {w : Word} {i : Instr} (hd : decode w = .ok i) (s : State) :
    tickFault w s = faultRaised i s := by
  simp only [tickFault, hd]

theorem tickFault_of_error {w : Word} {e : DecodeError} (hd : decode w = .error e) (s : State) :
    tickFault w s = some .decodeFault := by
  simp only [tickFault, hd]

theorem faultCondition_of_tickFault {c : FaultCause} {w : Word} {s : State} (h : tickFault w s = some c) :
    FaultCondition c w s := by
  cases hd : decode w with
  | ok i => exact faultCondition_of_faultRaised hd ((tickFault_of_ok hd s).symm.trans h)
  | error e =>
    cases (tickFault_of_error hd s).symm.trans h
    exact ⟨e, hd⟩

theorem tickFault_of_faultCondition {c : FaultCause} {w : Word} {s : State} (h : FaultCondition c w s) :
    tickFault w s = some c := by
  cases c with
  | decodeFault =>
    obtain ⟨e, hd⟩ := h
    exact tickFault_of_error hd s
  | stackOverflow =>
    obtain ⟨⟨nnn, hd⟩, hsp⟩ := h
    exact (tickFault_of_ok hd s).trans (if_pos hsp)
  | stackUnderflow =>
    obtain ⟨hd, hsp⟩ := h
    exact (tickFault_of_ok hd s).trans (if_pos hsp)
  | keyIndexFault =>
    obtain ⟨x, hd | hd, hx⟩ := h <;> exact (tickFault_of_ok hd s).trans (if_pos hx)

/-- The conditions of R200 are the graph of `tickFault`, so at most one holds. -/
theorem faultCondition_iff {c : FaultCause} {w : Word} {s : State} :
    FaultCondition c w s ↔ tickFault w s = some c :=
  ⟨tickFault_of_faultCondition, faultCondition_of_tickFault⟩

/-- Whether an instruction faults looks at the stack pointer and the registers alone, which a tick's start leaves. -/
theorem faultRaised_duringTick (i : Instr) (k : Keypad) (b : Byte) (s : State) :
    faultRaised i (duringTick k b s) = faultRaised i s := by
  cases i <;> rfl

theorem tickFault_duringTick (w : Word) (k : Keypad) (b : Byte) (s : State) :
    tickFault w (duringTick k b s) = tickFault w s := by
  cases hd : decode w with
  | ok i => rw [tickFault_of_ok hd, tickFault_of_ok hd, faultRaised_duringTick]
  | error e => rw [tickFault_of_error hd, tickFault_of_error hd]

/-- Running a word either completes with the fault record as it was, or raises the one fault of R200. -/
theorem runWord_cases (w : Word) (s : State) :
    (tickFault w s = none ∧ ∃ t, runWord w s = .next t ∧ t.fault = s.fault) ∨
    (∃ c, tickFault w s = some c ∧ runWord w s = raiseFault c s) := by
  cases hd : decode w with
  | error e => exact .inr ⟨.decodeFault, tickFault_of_error hd s, runWord_of_error hd s⟩
  | ok i =>
    rw [tickFault_of_ok hd, runWord_of_ok hd]
    rcases exec_cases i s with ⟨hn, t, he, hfault, -⟩ | hraise
    · exact .inl ⟨hn, t, he, hfault⟩
    · exact .inr hraise

/-- A tick with no fault condition leaves no fault, and one with a condition leaves the state of R105. -/
theorem step_tick_cases {s t : State} {k : Keypad} {b : Byte} (hf : s.fault = none) (hc : nextCall s = .tick k b)
    (h : step s = .next t) :
    (tickFault s.fetchWord s = none ∧ t.fault = none) ∨
    (∃ c, tickFault s.fetchWord s = some c ∧ t = faultedTick c k b s) := by
  rw [step_of_tick hf hc] at h
  rw [← tickFault_duringTick s.fetchWord k b s]
  rcases runWord_cases s.fetchWord (duringTick k b s) with ⟨hn, u, hr, hu⟩ | ⟨c, hsome, hr⟩
  · cases hr.symm.trans h
    exact .inl ⟨hn, hu.trans hf⟩
  · cases (hr.trans (raiseFault_duringTick c)).symm.trans h
    exact .inr ⟨c, hsome, rfl⟩

/-- The record a tick leaves names the cause of `tickFault`, the fetched word and its address (R201). -/
theorem fault_of_step_tick {s t : State} {k : Keypad} {b : Byte} (hf : s.fault = none) (hc : nextCall s = .tick k b)
    (h : step s = .next t) : t.fault = (tickFault s.fetchWord s).map (⟨·, s.fetchWord, s.pc⟩) := by
  rcases step_tick_cases hf hc h with ⟨hn, ht⟩ | ⟨c, hsome, rfl⟩
  · rw [hn, ht]; rfl
  · rw [hsome]; rfl

/-- Settles O12: a timer advance records no fault, and a tick that records one leaves `faultedTick`. -/
theorem faultsArePrecise : Obligations.FaultsArePrecise := by
  intro s t r h hr
  have hf := fault_eq_none_of_step h
  cases hc : nextCall s with
  | timerAdvance =>
    cases ((step_of_no_fault hf).trans (runCall_of_timerAdvance hc)).symm.trans h
    cases hf.symm.trans hr
  | tick k b =>
    rcases step_tick_cases hf hc h with ⟨-, ht⟩ | ⟨c, -, rfl⟩
    · cases ht.symm.trans hr
    · cases hr
      exact ⟨rfl, rfl, rfl, k, b, rfl⟩

/-- Settles O13: the record is `tickFault` with the word and its address, and the conditions are the graph of `tickFault`. -/
theorem ticksFaultExactlyOnTheirConditions : Obligations.TicksFaultExactlyOnTheirConditions := by
  intro s t k b hf hc h
  simp only [fault_of_step_tick hf hc h, faultCondition_iff]
  refine ⟨fun c => ?_, ?_, fun c d hcond hcond' => Option.some.inj (hcond.symm.trans hcond')⟩
  · simp only [Option.map_eq_some_iff, FaultRecord.mk.injEq, and_true, exists_eq_right]
  · rw [Option.map_eq_none_iff]
    exact Option.eq_none_iff_forall_ne_some

/-! ### A skip (R108) -/

/-- A skip taken inside a tick moves pc by 4 in all (R102, R108). -/
theorem skipIf_true_duringTick (k : Keypad) (b : Byte) (s : State) :
    (duringTick k b s).skipIf true = { duringTick k b s with pc := s.pc + 4 } := by
  have hpc : s.pc + 2 + 2 = s.pc + 4 := BitVec.add_assoc s.pc 2 2
  rw [← hpc]
  rfl

/-- A skip whose condition holds is a skip taken. -/
theorem next_skipIf_of_true {c : Bool} (s : State) (hc : c = true) :
    (.next (s.skipIf c) : Result) = .next (s.skipIf true) := by
  rw [hc]

/-- Settles O31: each of the six compares is a `skipIf` whose condition holds, so the tick completes without a look at the
word it skips. -/
theorem skippedWordIsNotDecoded : Obligations.SkippedWordIsNotDecoded := by
  intro s k b i hf hc hd htaken
  have hskip : exec i (duringTick k b s) = .next ((duringTick k b s).skipIf true) := by
    rcases htaken with ⟨x, kk, ⟨rfl, hx⟩ | ⟨rfl, hx⟩⟩ | ⟨x, y, ⟨rfl, hx⟩ | ⟨rfl, hx⟩⟩ |
      ⟨x, hkey, ⟨rfl, hdown⟩ | ⟨rfl, hup⟩⟩
    · exact next_skipIf_of_true _ (beq_iff_eq.mpr hx)
    · exact next_skipIf_of_true _ (bne_iff_ne.mpr hx)
    · exact next_skipIf_of_true _ (beq_iff_eq.mpr hx)
    · exact next_skipIf_of_true _ (bne_iff_ne.mpr hx)
    · exact (execSkp_ok x (duringTick k b s) hkey).trans (next_skipIf_of_true _ hdown)
    · exact (execSknp_ok x (duringTick k b s) hkey).trans (next_skipIf_of_true _ (congrArg not hup))
  rw [step_of_tick_of_decode_ok hf hc hd, hskip, skipIf_true_duringTick]
  exact ⟨_, rfl, rfl⟩

end Sys2Proof.Machine
end

section
/-! The host's calls (R107): their order, and the timer advances between ticks (R183, R184). -/

namespace Sys2Proof.Machine

/-- Taking a queued call off the queue. -/
theorem dropCall_of_queued {s : State} {c : HostCall} {cs : List HostCall} (h : s.host.calls = c :: cs) :
    dropCall s = { s with host := { s.host with calls := cs, draws := s.host.draws + 1 } } := by
  simp only [dropCall, h, List.tail_cons]

theorem step_of_queued {s : State} {c : HostCall} {cs : List HostCall} (hf : s.fault = none)
    (h : s.host.calls = c :: cs) : step s = perform c (dropCall s) := by
  rw [step_of_no_fault hf, runCall, nextCall_of_queued h]

/-- Settles O8: the oldest queued call is the next one, and with none queued the free value picks the kind. -/
theorem callsRunInHostOrder : Obligations.CallsRunInHostOrder := by
  refine ⟨fun s c cs hf h => ?_, fun s h => ?_⟩
  · rw [step_of_queued hf h, dropCall_of_queued h]
  · rw [nextCall_of_none_queued h]
    exact ⟨fun hadv => if_pos hadv, fun htick => if_neg (Bool.eq_false_iff.mp htick)⟩

/-! ### Timer advances -/

/-- A timer goes down by 1 and stops at 0 (R183). -/
theorem toNat_timer_decrement (b : Byte) : (if b = 0 then 0 else b - 1).toNat = b.toNat - 1 := by
  split
  case isTrue h => rw [h]; rfl
  case isFalse h => bv_omega

/-- The first of `n + 1` advances beeps iff the sound timer is 1, and the rest beep as from the timer one lower (R184). -/
theorem trace_timerAdvance_append (n : Nat) (s : State) :
    (timerAdvance s).trace ++ (if 0 < s.st.toNat - 1 ∧ s.st.toNat - 1 ≤ n then [.beep] else []) =
      s.trace ++ (if 0 < s.st.toNat ∧ s.st.toNat ≤ n + 1 then [.beep] else []) := by
  have hone : s.st = 1 ↔ s.st.toNat = 1 := by bv_omega
  rw [timerAdvance_trace]
  split
  case isTrue h => simp [hone.mp h]
  case isFalse h =>
    rw [hone] at h
    have hiff : (0 < s.st.toNat - 1 ∧ s.st.toNat - 1 ≤ n) ↔ (0 < s.st.toNat ∧ s.st.toNat ≤ n + 1) := by omega
    simp only [hiff]

/-- Settles O9, by induction on the number of advances: the first is a step, and the rest run from the state it leaves. -/
theorem timersMoveBetweenInstructions : Obligations.TimersMoveBetweenInstructions := by
  intro n cs s hf hcalls
  induction n generalizing s with
  | zero =>
    have hnone : ¬(0 < s.st.toNat ∧ s.st.toNat ≤ 0) := by omega
    exact ⟨s, rfl, hcalls, rfl, rfl, by rw [if_neg hnone, List.append_nil], rfl⟩
  | succ n ih =>
    have hqueue : s.host.calls = .timerAdvance :: (List.replicate n .timerAdvance ++ cs) := hcalls
    have hrest : (timerAdvance (dropCall s)).host.calls = List.replicate n .timerAdvance ++ cs := by
      rw [timerAdvance_host, dropCall_of_queued hqueue]
    obtain ⟨t, hrun, hleft, hdt, hst, htrace, hframe⟩ := ih (timerAdvance (dropCall s)) hf hrest
    rw [timerAdvance_dt, toNat_timer_decrement, Nat.sub_sub, Nat.add_comm 1 n] at hdt
    rw [timerAdvance_st, toNat_timer_decrement] at hst htrace
    rw [Nat.sub_sub, Nat.add_comm 1 n] at hst
    rw [trace_timerAdvance_append] at htrace
    exact ⟨t, (run_of_next (step_of_queued hf hqueue)).trans hrun, hleft, hdt, hst, htrace, hframe⟩

end Sys2Proof.Machine
end

section
/-! Loading a word (log 24): what `withFetchWord` changes, and that the next tick runs the word. -/

namespace Sys2Proof.Machine

/-- The bytes of the table's numbering are those of the word. -/
theorem tableBytes_16 (w : Nat) : tableBytes 16 w = [highByte (BitVec.ofNat 16 w), lowByte (BitVec.ofNat 16 w)] := by
  have hmod : BitVec.ofNat 16 (w % 2 ^ 16) = BitVec.ofNat 16 w :=
    BitVec.eq_of_toNat_eq (by simp only [BitVec.toNat_ofNat, Nat.mod_mod])
  rw [tableBytes, hmod]

theorem decode_of_decodeTableWord {w : Nat} {i : Instr} (h : decodeTableWord 16 w = some i) :
    decode (BitVec.ofNat 16 w) = .ok i := by
  rw [decodeTableWord, tableBytes_16, decodeBytes, bigEndian_highByte_lowByte] at h
  cases hd : decode (BitVec.ofNat 16 w) with
  | ok j => simpa [hd] using h
  | error e => simp [hd] at h

/-- The word whose two bytes are placed at pc is the one the next tick fetches (R54, R101). -/
theorem fetchWord_placeWord (s : State) (w : Word) : (placeWord s [highByte w, lowByte w]).fetchWord = w := by
  have hpc : (placeWord s [highByte w, lowByte w]).pc = s.pc := by rw [placeWord, storeBytes_eq]
  have hbyte := memRead_storeBytes s s.pc 0 [highByte w, lowByte w] (Nat.le_of_ble_eq_true rfl)
  rw [State.fetchWord, hpc, State.wordAt, placeWord]
  exact (congrArg₂ bigEndian (hbyte 0 Nat.zero_lt_two) (hbyte 1 Nat.one_lt_two)).trans (bigEndian_highByte_lowByte w)

/-- Placing two bytes leaves every other byte of memory (R52). -/
theorem keepsMemoryOutside_placeWord (s : State) (hi lo : Byte) :
    KeepsMemoryOutside s.pc 2 s (placeWord s [hi, lo]) := by
  intro a ha
  refine memRead_storeBytes_other s s.pc 0 [hi, lo] a fun j hj => ?_
  rw [Nat.zero_add]
  exact ha j hj

/-- Making a tick the next call leaves memory and pc, so the fetch. -/
theorem fetchWord_withTickNext (s : State) : (withTickNext s).fetchWord = s.fetchWord := by
  rw [withTickNext_eq]; rfl

section
variable (s : State) (w : Nat)

theorem withFetchWord_16 :
    s.withFetchWord 16 w = withTickNext (placeWord { s with fault := none }
      [highByte (BitVec.ofNat 16 w), lowByte (BitVec.ofNat 16 w)]) := by
  rw [State.withFetchWord, tableBytes_16]

/-- Loading a word changes memory, clears the fault record, and may change the queue of calls. -/
theorem withFetchWord_eq (nbits : Nat) :
    s.withFetchWord nbits w = { s with
      mem := (s.withFetchWord nbits w).mem
      fault := none
      host := { s.host with calls := (s.withFetchWord nbits w).host.calls } } := by
  rw [State.withFetchWord, withTickNext_eq, placeWord, storeBytes_eq]

theorem fetchWord_withFetchWord : (s.withFetchWord 16 w).fetchWord = BitVec.ofNat 16 w := by
  rw [withFetchWord_16, fetchWord_withTickNext, fetchWord_placeWord]

theorem keepsMemoryOutside_withFetchWord : KeepsMemoryOutside s.pc 2 s (s.withFetchWord 16 w) := by
  rw [withFetchWord_16, withTickNext_eq]
  exact keepsMemoryOutside_placeWord { s with fault := none } _ _

end

/-- Settles O10: the word is stored at pc with no fault recorded, so the tick made the next call fetches and runs it. -/
theorem placedWordRunsNext : Obligations.PlacedWordRunsNext := by
  intro s w i h
  have hfetch := fetchWord_withFetchWord s w
  have hframe := withFetchWord_eq s w 16
  have hdecode : decode (s.withFetchWord 16 w).fetchWord = .ok i := hfetch ▸ decode_of_decodeTableWord h
  obtain ⟨k, b, hnext⟩ : ∃ k b, nextCall (s.withFetchWord 16 w) = .tick k b := nextCall_withTickNext _
  have hstep := step_of_tick_of_decode_ok (congrArg State.fault hframe) hnext hdecode
  exact ⟨_, rfl, hfetch, keepsMemoryOutside_withFetchWord s w, hframe, k, b, hnext, hstep⟩

end Sys2Proof.Machine
end

section
/-! Jumps and skips (R123 to R129): the numbers that become pc, and the two conditions of a compare. -/

namespace Sys2Proof.Machine

/-! ### Jumps -/

@[simp] theorem toNat_zextAddr (nnn : BitVec 12) : (zextAddr nnn).toNat = nnn.toNat :=
  BitVec.toNat_setWidth_of_le (by decide)

@[simp] theorem toNat_zextByte (b : Byte) : (zextByte b).toNat = b.toNat :=
  BitVec.toNat_setWidth_of_le (by decide)

@[simp] theorem toNat_addrLowByte (nnn : BitVec 12) : (addrLowByte nnn).toNat = nnn.toNat % 256 := by
  rw [addrLowByte, BitVec.extractLsb'_toNat, Nat.shiftRight_zero]

/-- Settles O23: the target is the address zero-extended, and a jump writes pc alone. -/
theorem jumpSetsPc : Obligations.JumpSetsPc :=
  fun nnn s => ⟨s.jump (zextAddr nnn), rfl, toNat_zextAddr nnn, rfl, jump_memRead s _⟩

/-- Settles O32: the sum is one of bytes, and zero-extending it to pc keeps its value. -/
theorem jumpV0Truncates : Obligations.JumpV0Truncates := by
  intro nnn s
  refine ⟨s.jump (zextByte (s.reg 0 + addrLowByte nnn)), rfl, ?_, rfl, jump_memRead s _⟩
  rw [jump_pc, toNat_zextByte, BitVec.toNat_add, toNat_addrLowByte]

/-! ### Skips -/

theorem skipIf_beq (s : State) (a b : Byte) :
    s.skipIf (a == b) = { s with pc := if a = b then s.pc + 2 else s.pc } := by
  simp only [State.skipIf, beq_iff_eq]

theorem skipIf_bne (s : State) (a b : Byte) :
    s.skipIf (a != b) = { s with pc := if a = b then s.pc else s.pc + 2 } := by
  simp only [State.skipIf, bne_iff_ne, ite_not]

/-- Settles O29: the two compares with the immediate, each a `skipIf` that changes pc alone. -/
theorem immediateSkips : Obligations.ImmediateSkips :=
  fun x kk s => ⟨congrArg _ (skipIf_beq s (s.reg x) kk), congrArg _ (skipIf_bne s (s.reg x) kk)⟩

/-- Settles O30: the same two compares with a register's value, x = y included. -/
theorem registerSkips : Obligations.RegisterSkips :=
  fun x y s => ⟨congrArg _ (skipIf_beq s (s.reg x) (s.reg y)), congrArg _ (skipIf_bne s (s.reg x) (s.reg y))⟩

end Sys2Proof.Machine
end

section
/-! The call stack as the list of its addresses in use (R120, R121): CALL and RET push and pop its head. -/

namespace Sys2Proof.Machine

/-- The return addresses in use, the newest first (R31). -/
def State.entries (s : State) : List Word := (s.stack.toList.take s.sp.val).reverse

@[simp] theorem length_entries (s : State) : s.entries.length = s.sp.val := by
  have hsp : s.sp.val ≤ Config.stackCapacity := Nat.le_of_lt_succ s.sp.isLt
  simp only [State.entries, List.length_reverse, List.length_take, Vector.length_toList, Nat.min_eq_left hsp]

/-- One more entry in use: the entry SP pointed at stands before those in use below it. -/
theorem entries_eq_cons {s t : State} (hk : s.sp.val < Config.stackCapacity) (hsp : t.sp.val = s.sp.val + 1)
    (hbelow : t.stack.toList.take s.sp.val = s.stack.toList.take s.sp.val) :
    t.entries = t.stack[s.sp.val] :: s.entries := by
  have htop : t.stack.toList[s.sp.val]? = some t.stack[s.sp.val] := by
    rw [Vector.getElem?_toList, Vector.getElem?_eq_getElem hk]
  rw [State.entries, hsp, List.take_add_one, hbelow, htop, Option.toList_some, List.reverse_concat, State.entries]

/-- With room a push puts its address before the entries in use. -/
theorem push_of_lt (a : Word) {s : State} (h : s.sp.val < Config.stackCapacity) :
    ∃ t, push a s = .ok t ∧ t.entries = a :: s.entries := by
  refine ⟨_, push_ok a s h, ?_⟩
  have hbelow : (s.stack.set s.sp.val a h).toList.take s.sp.val = s.stack.toList.take s.sp.val := by
    rw [Vector.toList_set, List.take_set_of_le (Nat.le_refl _)]
  rw [entries_eq_cons h rfl hbelow, Vector.getElem_set_self]

/-- A pop takes the newest entry off, and clears nothing (R121). -/
theorem pop_of_entries {s : State} {a : Word} {es : List Word} (h : s.entries = a :: es) :
    ∃ t, pop s = .ok (a, t) ∧ t.entries = es ∧ t.stack = s.stack := by
  rcases pop_cases s with ⟨hk, hpos, hpop⟩ | ⟨hempty, -⟩
  · have htop := entries_eq_cons (s := { s with sp := ⟨s.sp.val - 1, Nat.lt_succ_of_lt hk⟩ }) (t := s) hk
      (Nat.sub_add_cancel hpos).symm rfl
    obtain ⟨rfl, rfl⟩ := List.cons.inj (h.symm.trans htop)
    exact ⟨_, hpop, rfl, rfl⟩
  · have hlen := length_entries s
    rw [h, hempty] at hlen
    cases hlen

theorem entries_congr {s t : State} (hstack : t.stack = s.stack) (hsp : t.sp = s.sp) : t.entries = s.entries := by
  rw [State.entries, hstack, hsp, State.entries]

theorem sp_eq_of_entries_eq {s t : State} (h : t.entries = s.entries) : t.sp = s.sp := by
  apply Fin.ext
  rw [← length_entries, h, length_entries]

/-! ### Sequences of pushes and pops -/

theorem pushAll_of_le {as : List Word} {s : State} (h : s.sp.val + as.length ≤ Config.stackCapacity) :
    ∃ t, pushAll as s = .ok t ∧ t.entries = as.reverse ++ s.entries := by
  induction as generalizing s with
  | nil => exact ⟨s, rfl, rfl⟩
  | cons a as ih =>
    rw [List.length_cons] at h
    obtain ⟨t, hpush, hentries⟩ := push_of_lt a (s := s) (by omega)
    have hsp : t.sp.val = s.sp.val + 1 := by
      rw [← length_entries, hentries, List.length_cons, length_entries]
    obtain ⟨u, hpushAll, hu⟩ := ih (s := t) (by omega)
    refine ⟨u, ?_, ?_⟩
    · simp only [pushAll, hpush, hpushAll]
    · rw [hu, hentries, List.reverse_cons, List.append_assoc, List.singleton_append]

theorem pushAll_overflow {as : List Word} {s : State} (h : Config.stackCapacity < s.sp.val + as.length) :
    pushAll as s = .error .stackOverflow := by
  induction as generalizing s with
  | nil =>
    rw [List.length_nil] at h
    have := s.sp.isLt
    omega
  | cons a as ih =>
    rw [List.length_cons] at h
    rcases push_cases a s with ⟨hroom, hpush⟩ | ⟨-, hpush⟩
    · simp only [pushAll, hpush]
      exact ih (h.trans_eq (Nat.succ_add_eq_add_succ s.sp.val as.length).symm)
    · simp only [pushAll, hpush]

theorem popMany_of_entries {rs es : List Word} {s : State} (h : s.entries = rs ++ es) :
    ∃ t, popMany rs.length s = .ok (rs, t) ∧ t.entries = es ∧ t.stack = s.stack := by
  induction rs generalizing s with
  | nil => exact ⟨s, rfl, h, rfl⟩
  | cons r rs ih =>
    obtain ⟨t, hpop, ht, hstack⟩ := pop_of_entries h
    obtain ⟨u, hpopMany, hu, hkept⟩ := ih ht
    refine ⟨u, ?_, hu, hkept.trans hstack⟩
    simp only [List.length_cons, popMany, hpop, hpopMany]

/-- Settles O28: what `pushAll` leaves in use is the reversed list before the entries of the start, which is what `popMany`
takes off. -/
theorem stackIsLastInFirstOut : Obligations.StackIsLastInFirstOut := by
  refine fun as s => ⟨fun hfit => ?_, pushAll_overflow⟩
  obtain ⟨t, hpush, ht⟩ := pushAll_of_le hfit
  obtain ⟨u, hpop, hu, hstack⟩ := popMany_of_entries ht
  have hsp : t.sp.val = s.sp.val + as.length := by
    rw [← length_entries, ht, List.length_append, List.length_reverse, length_entries, Nat.add_comm]
  rw [List.length_reverse] at hpop
  exact ⟨t, u, hpush, hsp, hpop, sp_eq_of_entries_eq hu, hstack⟩

/-! ### CALL and RET -/

theorem execCall_of_push {s t : State} (nnn : BitVec 12) (h : push s.pc s = .ok t) :
    exec (.call nnn) s = .next (t.jump (zextAddr nnn)) := by
  simp only [exec, execCall, h]

theorem execRet_of_pop {s t : State} {a : Word} (h : pop s = .ok (a, t)) : exec .ret s = .next (t.jump a) := by
  simp only [exec, execRet, h]

/-- Settles O27: CALL makes the advanced pc the newest entry, and RET takes the newest entry off, in every state that has
those entries in use. -/
theorem retUndoesCall : Obligations.RetUndoesCall := by
  intro nnn s hroom
  obtain ⟨t, hpush, ht⟩ := push_of_lt s.pc hroom
  refine ⟨t.jump (zextAddr nnn), execCall_of_push nnn hpush, fun u hstack hsp => ?_⟩
  have hu : u.entries = s.pc :: s.entries := (entries_congr (s := t) hstack hsp).trans ht
  obtain ⟨w, hpop, hw, hkept⟩ := pop_of_entries hu
  exact ⟨w.jump s.pc, execRet_of_pop hpop, rfl, sp_eq_of_entries_eq hw, hkept⟩

/-- Settles O24: with room CALL completes, and it writes the entry SP points at, SP and pc. -/
theorem callPushesReturnAddress : Obligations.CallPushesReturnAddress := by
  intro nnn s h
  refine ⟨_, execCall_ok nnn s h, toNat_zextAddr nnn, rfl, ?_, fun k hk hne => ?_, rfl, fun _ => rfl⟩
  · exact Vector.getElem_set_self h
  · exact Vector.getElem_set_ne h hk hne.symm

/-- Settles O25: with an entry in use RET completes, and it writes pc and SP alone. -/
theorem retPopsReturnAddress : Obligations.RetPopsReturnAddress := by
  intro s hpos
  have hk : s.sp.val - 1 < Config.stackCapacity := by have := s.sp.isLt; omega
  exact ⟨_, execRet_ok s hpos hk, Nat.sub_add_cancel hpos, fun _ => rfl, rfl, fun _ => rfl⟩

/-- Settles O26: a full stack refuses the push and an empty one the pop, and both faults are raised the same way. -/
theorem stackFaultsAreRecorded : Obligations.StackFaultsAreRecorded :=
  fun nnn s => ⟨execCall_full nnn s, execRet_empty s⟩

end Sys2Proof.Machine
end

section
/-! Register arithmetic and logic (R140 to R153): the flags as numbers, the two writes of a flag writer with VF its
destination (one write of VF) and without (two registers, neither seen by the other), and what each instruction writes. -/

namespace Sys2Proof.Machine

/-! ### Flags and results as numbers (R24, R153) -/

@[simp] theorem toNat_carryFlag (a b : Byte) : (carryFlag a b).toNat = if a.toNat + b.toNat > 255 then 1 else 0 := by
  rw [carryFlag, apply_ite BitVec.toNat]; rfl

@[simp] theorem toNat_noBorrowFlag (a b : Byte) : (noBorrowFlag a b).toNat = if a.toNat ≥ b.toNat then 1 else 0 := by
  rw [noBorrowFlag, apply_ite BitVec.toNat]; rfl

@[simp] theorem toNat_shiftRightFlag (a : Byte) : (shiftRightFlag a).toNat = a.toNat % 2 :=
  (BitVec.toNat_and ..).trans (Nat.and_one_is_mod _)

/-- Bit 7 of a byte is set iff the byte is 128 or more; the mask keeps it in its place (R150). -/
@[simp] theorem toNat_shiftLeftFlag (a : Byte) : (shiftLeftFlag a).toNat = if a.toNat ≥ 128 then 0x80 else 0x00 := by
  have hmask : (shiftLeftFlag a).toNat = (a.toNat.testBit 7).toNat * 2 ^ 7 :=
    (BitVec.toNat_and ..).trans (Nat.and_two_pow _ 7)
  have hbit : a.toNat.testBit 7 = decide (a.toNat ≥ 128) := by
    rw [Nat.testBit_eq_decide_div_mod_eq]
    have := a.isLt
    exact decide_eq_decide.mpr (by omega)
  by_cases h : a.toNat ≥ 128 <;> simp [hmask, hbit, h]

theorem toNat_shiftRight_one (a : Byte) : (a >>> 1).toNat = a.toNat / 2 :=
  (BitVec.toNat_ushiftRight ..).trans (Nat.shiftRight_eq_div_pow ..)

theorem toNat_shiftLeft_one (a : Byte) : (a <<< 1).toNat = a.toNat * 2 % 256 := by
  rw [BitVec.toNat_shiftLeft, Nat.shiftLeft_eq]

/-- A difference of bytes wraps to the exact difference modulo 256. -/
theorem toNat_sub_eq_emod (a b : Byte) : ((a - b).toNat : Int) = ((a.toNat : Int) - b.toNat) % 256 := by
  rw [BitVec.toNat_sub]
  have := a.isLt
  have := b.isLt
  omega

/-- Shifted once more, the bit that SHR took out is gone (R152). -/
theorem shiftRightFlag_shiftRight_one (a : Byte) : shiftRightFlag a >>> 1 = 0 := by
  apply BitVec.eq_of_toNat_eq
  rw [toNat_shiftRight_one, toNat_shiftRightFlag]
  exact Nat.div_eq_of_lt (Nat.mod_lt _ (by decide))

/-- Shifted once more, the bit that SHL took out is gone (R152). -/
theorem shiftLeftFlag_shiftLeft_one (a : Byte) : shiftLeftFlag a <<< 1 = 0 := by
  apply BitVec.eq_of_toNat_eq
  rw [toNat_shiftLeft_one, toNat_shiftLeftFlag]
  split <;> rfl

/-! ### A flag writer with another destination than VF -/

/-- Where only the register file differs, the registers it keeps are all a frame has to name. -/
theorem onlyRegsChange_of_v {ds : List Reg} {s t : State} (hv : t = { s with v := t.v }) (hr : KeepsRegsBut ds s t) :
    OnlyRegsChange ds s t :=
  have hmem : t.mem = s.mem := by rw [hv]
  ⟨hr, memRead_eq_of_mem_eq hmem, hv⟩

section
variable {d : Reg} (f : Byte) (s : State)

theorem onlyRegsChange_resultThenFlag (a : Byte) : OnlyRegsChange [d, vf] s (resultThenFlag .textOrder d a f s) := by
  refine onlyRegsChange_of_v (resultThenFlag_eq ..) fun r hr => ?_
  obtain ⟨hd, hf⟩ : r ≠ d ∧ r ≠ vf := by simpa using hr
  exact reg_resultThenFlag_textOrder_other a f s hd hf

theorem onlyRegsChange_flagThenShift (g : Byte → Byte) : OnlyRegsChange [d, vf] s (flagThenShift .textOrder d f g s) := by
  refine onlyRegsChange_of_v (flagThenShift_eq ..) fun r hr => ?_
  obtain ⟨hd, hf⟩ : r ≠ d ∧ r ≠ vf := by simpa using hr
  exact reg_flagThenShift_textOrder_other f g s hd hf

theorem reg_resultThenFlag_vf (a : Byte) : (resultThenFlag .textOrder d a f s).reg vf = f := by
  rw [reg_resultThenFlag_textOrder, if_pos rfl]

theorem reg_resultThenFlag_dest (hd : d ≠ vf) (a : Byte) : (resultThenFlag .textOrder d a f s).reg d = a := by
  rw [reg_resultThenFlag_textOrder, if_neg hd, if_pos rfl]

theorem reg_flagThenShift_vf (hd : d ≠ vf) (g : Byte → Byte) : (flagThenShift .textOrder d f g s).reg vf = f := by
  rw [reg_flagThenShift_textOrder, if_neg hd.symm, if_pos rfl]

theorem reg_flagThenShift_dest (hd : d ≠ vf) (g : Byte → Byte) :
    (flagThenShift .textOrder d f g s).reg d = g (s.reg d) := by
  rw [reg_flagThenShift_textOrder, if_pos rfl, if_neg hd]

end

/-! ### A flag writer with VF its destination: one write of VF (R152) -/

theorem setReg_setReg_same (s : State) (r : Reg) (a b : Byte) : (s.setReg r a).setReg r b = s.setReg r b := by
  simp only [State.setReg, Vector.set_set]

/-- The flag is the last write, so the result is lost. -/
theorem resultThenFlag_textOrder_clash (a f : Byte) (s : State) : resultThenFlag .textOrder vf a f s = s.setReg vf f :=
  setReg_setReg_same s vf a f

/-- The shift is the last write, and it shifts the flag. -/
theorem flagThenShift_textOrder_clash (f : Byte) (g : Byte → Byte) (s : State) :
    flagThenShift .textOrder vf f g s = s.setReg vf (g f) := by
  rw [flagThenShift, reg_setReg_same, setReg_setReg_same]

/-! ### Instructions that write one register and no flag -/

/-- Settles O34: each instruction is a write of Vx alone; the sum of bytes wraps at 256. -/
theorem loadsAndImmediateAdd : Obligations.LoadsAndImmediateAdd := by
  refine fun x y kk s => ⟨⟨_, rfl, ?ldImm, onlyRegsChange_setReg s x _⟩, ⟨_, rfl, ?addImm, onlyRegsChange_setReg s x _⟩,
    ⟨_, rfl, ?ldReg, onlyRegsChange_setReg s x _⟩⟩
  case ldImm | ldReg => exact reg_setReg_same s x _
  case addImm => rw [reg_setReg_same, BitVec.toNat_add]

/-- Settles O35: each instruction is a write of Vx alone, of a byte combined bit by bit. -/
theorem bitwiseOperations : Obligations.BitwiseOperations := by
  refine fun x y s => ⟨⟨_, rfl, onlyRegsChange_setReg s x _, fun k _ => ?or⟩,
    ⟨_, rfl, onlyRegsChange_setReg s x _, fun k _ => ?and⟩, ⟨_, rfl, onlyRegsChange_setReg s x _, fun k _ => ?xor⟩⟩
  case or => rw [reg_setReg_same, BitVec.getLsbD_or]
  case and => rw [reg_setReg_same, BitVec.getLsbD_and]
  case xor => rw [reg_setReg_same, BitVec.getLsbD_xor]

/-- Settles O43: a write of Vx alone, of the tick's random byte under the mask, whose clear bits stay clear. -/
theorem rndMasksTheDraw : Obligations.RndMasksTheDraw := by
  intro x kk s
  have hread : (s.setReg x (s.host.rnd &&& kk)).reg x = s.host.rnd &&& kk := reg_setReg_same s x _
  refine ⟨_, rfl, onlyRegsChange_setReg s x _, hread, fun k hk => ?_⟩
  rw [hread, BitVec.getLsbD_and, hk, Bool.and_false]

/-! ### Instructions that write a flag -/

/-- Settles O36: with x ≠ VF the sum and the carry go to two registers. -/
theorem addSetsCarry : Obligations.AddSetsCarry := by
  refine fun x y s hx => ⟨resultThenFlag .textOrder x _ _ s, rfl, ?sum, ?flag, onlyRegsChange_resultThenFlag _ s _⟩
  case sum => rw [reg_resultThenFlag_dest _ s hx, BitVec.toNat_add]
  case flag => rw [reg_resultThenFlag_vf, toNat_carryFlag]

/-- Settles O37: with x ≠ VF the difference and the no-borrow flag go to two registers. -/
theorem subSetsNoBorrow : Obligations.SubSetsNoBorrow := by
  refine fun x y s hx => ⟨resultThenFlag .textOrder x _ _ s, rfl, ?difference, ?flag, onlyRegsChange_resultThenFlag _ s _⟩
  case difference => rw [reg_resultThenFlag_dest _ s hx, toNat_sub_eq_emod]
  case flag => rw [reg_resultThenFlag_vf, toNat_noBorrowFlag]

/-- Settles O38: this hardware's SUBN_DEST is Vy (D13), so with y ≠ VF the difference and the flag go to two registers. -/
theorem subnWritesVy : Obligations.SubnWritesVy := by
  refine fun x y s hy => ⟨resultThenFlag .textOrder y _ _ s, rfl, ?difference, ?flag, onlyRegsChange_resultThenFlag _ s _⟩
  case difference => rw [reg_resultThenFlag_dest _ s hy, toNat_sub_eq_emod]
  case flag => rw [reg_resultThenFlag_vf, toNat_noBorrowFlag]

/-- Settles O39: with x ≠ VF the flag's write leaves the register that is shifted. -/
theorem shrShiftsBitIntoVf : Obligations.ShrShiftsBitIntoVf := by
  refine fun x s hx => ⟨flagThenShift .textOrder x _ _ s, rfl, ?half, ?flag, onlyRegsChange_flagThenShift _ s _⟩
  case half => rw [reg_flagThenShift_dest _ s hx, toNat_shiftRight_one]
  case flag => rw [reg_flagThenShift_vf _ s hx, toNat_shiftRightFlag]

/-- Settles O40: with x ≠ VF the flag's write leaves the register that is shifted, and the flag is bit 7 in its place. -/
theorem shlShiftsRawBitIntoVf : Obligations.ShlShiftsRawBitIntoVf := by
  refine fun x s hx => ⟨flagThenShift .textOrder x _ _ s, rfl, ?double, ?flag, onlyRegsChange_flagThenShift _ s _⟩
  case double => rw [reg_flagThenShift_dest _ s hx, toNat_shiftLeft_one]
  case flag => rw [reg_flagThenShift_vf _ s hx, toNat_shiftLeftFlag]

/-- With VF the destination, an instruction that writes its result first leaves the flag (R152). -/
theorem clash_leaves_flag {i : Instr} {a f : Byte} {s : State} {n : Nat}
    (h : exec i s = .next (resultThenFlag .textOrder vf a f s)) (hf : f.toNat = n) :
    ∃ t, exec i s = .next t ∧ OnlyRegsChange [vf] s t ∧ (t.reg vf).toNat = n := by
  rw [resultThenFlag_textOrder_clash] at h
  exact ⟨_, h, onlyRegsChange_setReg s vf f, by rw [reg_setReg_same, hf]⟩

/-- With VF the destination, a shift leaves the shifted flag (R152). -/
theorem clash_leaves_shifted_flag {i : Instr} {f b : Byte} {g : Byte → Byte} {s : State}
    (h : exec i s = .next (flagThenShift .textOrder vf f g s)) (hb : g f = b) :
    ∃ t, exec i s = .next t ∧ OnlyRegsChange [vf] s t ∧ t.reg vf = b := by
  rw [flagThenShift_textOrder_clash] at h
  exact ⟨_, h, onlyRegsChange_setReg s vf _, by rw [reg_setReg_same, hb]⟩

/-- Settles O41: a clash is one write of VF, with the flag of ADD, SUB or SUBN, or with the flag of SHR or SHL shifted out. -/
theorem vfDestinationClash : Obligations.VfDestinationClash :=
  fun y s => ⟨clash_leaves_flag rfl (toNat_carryFlag (s.reg vf) (s.reg y)),
    clash_leaves_flag rfl (toNat_noBorrowFlag (s.reg vf) (s.reg y)),
    clash_leaves_flag rfl (toNat_noBorrowFlag (s.reg vf) (s.reg y)),
    clash_leaves_shifted_flag rfl (shiftRightFlag_shiftRight_one (s.reg vf)),
    clash_leaves_shifted_flag rfl (shiftLeftFlag_shiftLeft_one (s.reg vf))⟩

end Sys2Proof.Machine
end

section
/-! The index register and the memory transfers (R160 to R165): what a transfer from I on writes and keeps, and the loads of
I as numbers. -/

namespace Sys2Proof.Machine

/-! ### Stored bytes, from byte 0 of a transfer on (R52) -/

section
variable (s : State) (base : Word) (us : List Byte)

theorem memRead_storeBytes_zero (hl : us.length ≤ Config.memSize) (j : Nat) (hj : j < us.length) :
    (s.storeBytes base 0 us).memRead (memAddr base j) = us[j] := by
  simpa only [Nat.zero_add] using memRead_storeBytes s base 0 us hl j hj

theorem keepsMemoryOutside_storeBytes : KeepsMemoryOutside base us.length s (s.storeBytes base 0 us) := by
  refine fun a ha => memRead_storeBytes_other s base 0 us a fun j hj => ?_
  rw [Nat.zero_add]
  exact ha j hj

end

/-! ### What the transfers store (R163, R164) -/

@[simp] theorem length_bcdDigits (b : Byte) : (bcdDigits b).length = 3 := rfl

/-- A number no greater than a byte's value is itself as a byte: every decimal digit of `b` is one. -/
theorem toNat_ofNat_of_le_toNat {n : Nat} {b : Byte} (h : n ≤ b.toNat) : (BitVec.ofNat 8 n).toNat = n :=
  (BitVec.toNat_ofNat ..).trans (Nat.mod_eq_of_lt (h.trans_lt b.isLt))

theorem regIndex_val (r : Reg) : regIndex r.val = r := regIndex_of_lt r.isLt

/-- V0 to Vx, the bytes `LD [I],Vx` stores (R164). -/
def State.regsUpTo (s : State) (x : Reg) : List Byte := (List.range (x.val + 1)).map fun k => s.reg (regIndex k)

theorem exec_storeRegs (x : Reg) (s : State) : exec (.storeRegs x) s = .next (s.storeBytes s.i 0 (s.regsUpTo x)) := rfl

@[simp] theorem length_regsUpTo (s : State) (x : Reg) : (s.regsUpTo x).length = x.val + 1 := by
  rw [State.regsUpTo, List.length_map, List.length_range]

@[simp] theorem getElem_regsUpTo (s : State) {x r : Reg} (h : r.val < (s.regsUpTo x).length) :
    (s.regsUpTo x)[r.val] = s.reg r := by
  simp only [State.regsUpTo, List.getElem_map, List.getElem_range, regIndex_val]

/-! ### The memory transfers -/

/-- Settles O46: three bytes stored from I on, the decimal digits of Vx. -/
theorem bcdStoresThreeDigits : Obligations.BcdStoresThreeDigits := by
  intro x s
  have hread := memRead_storeBytes_zero s s.i (bcdDigits (s.reg x)) ((length_bcdDigits _).trans_le (by decide))
  refine ⟨s.storeBytes s.i 0 (bcdDigits (s.reg x)), rfl, ?hundreds, ?tens, ?ones,
    keepsMemoryOutside_storeBytes s s.i (bcdDigits (s.reg x)), storeBytes_eq ..⟩
  case hundreds =>
    rw [hread 0 (by simp)]
    exact toNat_ofNat_of_le_toNat (Nat.div_le_self ..)
  case tens =>
    rw [hread 1 (by simp)]
    exact toNat_ofNat_of_le_toNat ((Nat.mod_le ..).trans (Nat.div_le_self ..))
  case ones =>
    rw [hread 2 (by simp)]
    exact toNat_ofNat_of_le_toNat (Nat.mod_le ..)

/-- Settles O47: V0 to Vx stored from I on, at most 16 bytes, so at distinct addresses. -/
theorem storeRegisters : Obligations.StoreRegisters := by
  refine fun x s => ⟨_, exec_storeRegs x s, fun r hr => ?stored, ?frame, storeBytes_eq ..⟩
  case stored =>
    have hl : (s.regsUpTo x).length ≤ Config.memSize := (length_regsUpTo s x).trans_le (x.isLt.trans (by decide))
    have hj : r.val < (s.regsUpTo x).length := by rwa [length_regsUpTo, Nat.lt_succ_iff]
    rw [memRead_storeBytes_zero s s.i _ hl r.val hj, getElem_regsUpTo]
  case frame => simpa only [length_regsUpTo] using keepsMemoryOutside_storeBytes s s.i (s.regsUpTo x)

/-- Settles O48: the loop loads register r from I + r for every r up to x, and touches the register file alone. -/
theorem loadRegisters : Obligations.LoadRegisters := by
  intro x s
  have heq := loadLoop_eq (x.val + 1) 0 s
  have hmem : (loadLoop (x.val + 1) 0 s).mem = s.mem := by rw [heq]
  refine ⟨_, rfl, fun r hr => ?loaded, fun r => reg_loadLoop_above s, memRead_eq_of_mem_eq hmem, heq⟩
  case loaded => rw [reg_loadLoop _ _ _ (by omega), if_pos (by omega)]

/-- Settles O49: the load reads register r from I + r (R165), where the store put it (R164). -/
theorem storeThenLoadRestoresRegisters : Obligations.StoreThenLoadRestoresRegisters := by
  intro x s
  obtain ⟨t, hstore, hstored, -⟩ := storeRegisters x s
  refine ⟨t, hstore, fun u hmem hi => ?_⟩
  obtain ⟨w, hload, hloaded, -⟩ := loadRegisters x u
  exact ⟨w, hload, fun r hr => calc
    w.reg r = u.memRead (memAddr u.i r.val) := hloaded r hr
    _ = t.memRead (memAddr s.i r.val) := by rw [memRead_eq_of_mem_eq hmem, hi]
    _ = s.reg r := hstored r hr⟩

/-! ### The index register -/

/-- Settles O44: each instruction writes I alone; the sum of a word and a byte wraps at 65536. -/
theorem indexLoadAndAdd : Obligations.IndexLoadAndAdd := by
  refine fun nnn x s => ⟨⟨_, rfl, toNat_zextAddr nnn, rfl, memRead_eq_of_mem_eq rfl⟩,
    ⟨_, rfl, ?sum, rfl, memRead_eq_of_mem_eq rfl⟩⟩
  case sum => rw [BitVec.toNat_add, toNat_zextByte]

/-- Settles O45: five times a byte fits in a word, so nothing is cut off. -/
theorem fontAddress : Obligations.FontAddress := by
  refine fun x s => ⟨_, rfl, ?product, rfl, memRead_eq_of_mem_eq rfl⟩
  case product =>
    have hfits : (s.reg x).toNat * 5 < 65536 := by have := (s.reg x).isLt; omega
    exact (BitVec.toNat_ofNat ..).trans (Nat.mod_eq_of_lt hfits)

end Sys2Proof.Machine
end

section
/-! The display (R170 to R176): what `draw` does to each pixel and when it collides, and the two display instructions. -/

namespace Sys2Proof.Machine

theorem pixel_congr (fb : Framebuffer) {py px qy qx : Nat} (hy : py % Config.fbHeight = qy % Config.fbHeight)
    (hx : px % Config.fbWidth = qx % Config.fbWidth) : fb.pixel py px = fb.pixel qy qx := by
  rw [← pixel_mod fb py px, hy, hx, pixel_mod]

/-! ### `draw`, pixel by pixel: up to 32 rows reach no pixel twice (R176) -/

section
variable {x y : Nat} {rows : List Byte} (hl : rows.length ≤ 32)

include hl

theorem pixel_draw_under (fb : Framebuffer) {r j : Nat} (hr : r < rows.length) (hj : j < 8) :
    (fb.draw x y rows).1.pixel (y + r) (x + j) = (fb.pixel (y + r) (x + j) ^^ rowBit rows[r] j) :=
  (blitRows_spec x y rows (fb, false) hl).1 r hr j hj

theorem pixel_draw_off (fb : Framebuffer) {py px : Nat}
    (hoff : ∀ r, r < rows.length → ∀ j, j < 8 →
      ¬(py % Config.fbHeight = (y + r) % Config.fbHeight ∧ px % Config.fbWidth = (x + j) % Config.fbWidth)) :
    (fb.draw x y rows).1.pixel py px = fb.pixel py px :=
  (blitRows_spec x y rows (fb, false) hl).2.1 py px hoff

theorem draw_collides_iff (fb : Framebuffer) :
    (fb.draw x y rows).2 = true ↔ ∃ r, ∃ hr : r < rows.length, ∃ j, j < 8 ∧ rowBit rows[r] j = true ∧
      fb.pixel (y + r) (x + j) = true := by
  have hblit := (blitRows_spec x y rows (fb, false) hl).2.2
  rwa [or_iff_right Bool.false_ne_true] at hblit

/-- Each pixel is under a bit of the sprite, or no draw of the sprite changes it. -/
theorem pixel_under_or_off (py px : Nat) :
    (∃ r, ∃ _ : r < rows.length, ∃ j, j < 8 ∧ ∀ fb : Framebuffer, fb.pixel py px = fb.pixel (y + r) (x + j)) ∨
    ∀ fb : Framebuffer, (fb.draw x y rows).1.pixel py px = fb.pixel py px := by
  by_cases hon : ∃ r, r < rows.length ∧ ∃ j, j < 8 ∧
      py % Config.fbHeight = (y + r) % Config.fbHeight ∧ px % Config.fbWidth = (x + j) % Config.fbWidth
  · obtain ⟨r, hr, j, hj, hy, hx⟩ := hon
    exact Or.inl ⟨r, hr, j, hj, fun fb => pixel_congr fb hy hx⟩
  · exact Or.inr fun fb => pixel_draw_off hl fb fun r hr j hj hat => hon ⟨r, hr, j, hj, hat⟩

/-- A second draw of the same sprite at the same place flips the same pixels back (R170). -/
theorem draw_draw (fb : Framebuffer) : ((fb.draw x y rows).1.draw x y rows).1 = fb := by
  refine fb_ext fun py px _ _ => ?_
  obtain ⟨r, hr, j, hj, hat⟩ | hoff := pixel_under_or_off (x := x) (y := y) hl py px
  · rw [hat, hat, pixel_draw_under hl _ hr hj, pixel_draw_under hl _ hr hj, Bool.xor_assoc, Bool.xor_self, Bool.xor_false]
  · rw [hoff, hoff]

/-- A draw collides exactly when it turns some pixel from 1 to 0 (R171). -/
theorem draw_collides_iff_turns_off (fb : Framebuffer) :
    (fb.draw x y rows).2 = true ↔ ∃ py px, py < Config.fbHeight ∧ px < Config.fbWidth ∧
      (fb.draw x y rows).1.pixel py px = false ∧ fb.pixel py px = true := by
  rw [draw_collides_iff hl]
  constructor
  · rintro ⟨r, hr, j, hj, hbit, hpix⟩
    refine ⟨(y + r) % Config.fbHeight, (x + j) % Config.fbWidth, Nat.mod_lt _ (by decide), Nat.mod_lt _ (by decide), ?_⟩
    rw [pixel_mod, pixel_mod, pixel_draw_under hl fb hr hj, hpix, hbit]
    exact ⟨rfl, rfl⟩
  · rintro ⟨py, px, -, -, hafter, hpix⟩
    obtain ⟨r, hr, j, hj, hat⟩ | hoff := pixel_under_or_off (x := x) (y := y) hl py px
    · rw [hat] at hpix
      rw [hat, pixel_draw_under hl fb hr hj, hpix, Bool.true_xor, Bool.not_eq_false'] at hafter
      exact ⟨r, hr, j, hj, hafter, hpix⟩
    · rw [hoff, hpix] at hafter
      exact absurd hafter (by decide)

end

/-! ### The display instructions -/

/-- Settles O50: `clear` leaves no pixel set (R172), and CLS writes the framebuffer alone. -/
theorem clsClearsEveryPixel : Obligations.ClsClearsEveryPixel :=
  fun s => ⟨{ s with fb := Framebuffer.clear }, rfl, pixel_clear, rfl, memRead_eq_of_mem_eq rfl⟩

/-- What `DRW Vx,Vy,n` draws in a state: the framebuffer after the blit, and whether a collision occurred (R175). -/
def State.drawn (s : State) (x y : Reg) (n : Nat) : Framebuffer × Bool :=
  s.fb.draw (s.reg x).toNat (s.reg y).toNat (s.spriteRows n)

theorem exec_drw (x y : Reg) (n : Nat) (s : State) :
    exec (.drw x y n) s =
      .next (State.setReg { s with fb := (s.drawn x y n).1 } vf (collisionFlag (s.drawn x y n).2)) := rfl

theorem spriteRows_congr {s t : State} (hmem : t.mem = s.mem) (hi : t.i = s.i) (n : Nat) :
    t.spriteRows n = s.spriteRows n := by
  simp only [State.spriteRows, memRead_eq_of_mem_eq hmem, hi]

theorem length_spriteRows_le_of_wellFormed {x y : Reg} {n : Nat} (h : (Instr.drw x y n).wellFormed = true) (s : State) :
    (s.spriteRows n).length ≤ 32 := by
  have hn : n < 16 := of_decide_eq_true h
  rw [length_spriteRows]
  omega

/-- Settles O51: `draw` of the rows at I, read through `pixel_mod`, and then one write of VF. -/
theorem drwDrawsSprite : Obligations.DrwDrawsSprite := by
  intro x y n s hwf
  have hl := length_spriteRows_le_of_wellFormed hwf s
  have hlen := length_spriteRows s n
  refine ⟨_, exec_drw x y n s, fun r c hr hc => ?under, fun py px hpy hpx hoff => ?off, ?bit, ?collision,
    fun r hr => reg_setReg_other _ _ (by simpa using hr), memRead_eq_of_mem_eq rfl, rfl⟩
  case under =>
    have hr' : r < (s.spriteRows n).length := hr.trans_eq hlen.symm
    rw [setReg_fb, pixel_mod, pixel_mod, State.drawn, pixel_draw_under hl s.fb hr' hc, getElem_spriteRows, rowBit]
  case off =>
    refine pixel_draw_off hl s.fb fun r hr c hc ⟨hy, hx⟩ => hoff r c (hr.trans_eq hlen) hc ⟨?_, ?_⟩
    · rw [← hy, Nat.mod_eq_of_lt hpy]
    · rw [← hx, Nat.mod_eq_of_lt hpx]
  case bit =>
    rw [reg_setReg_same, collisionFlag_eq_zero, collisionFlag_eq_one]
    exact (Bool.eq_false_or_eq_true _).symm
  case collision =>
    rw [reg_setReg_same, collisionFlag_eq_one, State.drawn, draw_collides_iff hl]
    simp only [getElem_spriteRows, rowBit, hlen, pixel_mod, exists_prop, exists_and_left]

/-- Settles O52: the second draw is the first one's inverse, so it turns off exactly the pixels the first turned on. -/
theorem drawTwiceRestoresDisplay : Obligations.DrawTwiceRestoresDisplay := by
  intro x y p q n s hwf
  have hl := length_spriteRows_le_of_wellFormed hwf s
  refine ⟨_, exec_drw x y n s, fun u hfb hmem hi hp hq => ⟨_, exec_drw p q n u, ?_⟩⟩
  have hrows : u.spriteRows n = s.spriteRows n := spriteRows_congr hmem hi n
  have hdrawn : u.drawn p q n = (s.drawn x y n).1.draw (s.reg x).toNat (s.reg y).toNat (s.spriteRows n) := by
    rw [State.drawn, hfb, hp, hq, hrows, setReg_fb]
  rw [setReg_fb, reg_setReg_same, collisionFlag_eq_one, hdrawn, draw_collides_iff_turns_off hl, State.drawn, draw_draw hl]
  exact ⟨rfl, Iff.rfl⟩

end Sys2Proof.Machine
end

section
/-! The timers (R180 to R184): the three transfers, one advance, and the one beep of an activation. -/

namespace Sys2Proof.Machine

/-- Settles O53: a read of DT is a register write, and a set of DT or ST writes that timer alone. -/
theorem timerTransfers : Obligations.TimerTransfers :=
  fun x s => ⟨⟨s.setReg x s.dt, rfl, reg_setReg_same s x s.dt, onlyRegsChange_setReg s x s.dt⟩,
    ⟨_, rfl, rfl, rfl, memRead_eq_of_mem_eq rfl⟩, ⟨_, rfl, rfl, rfl, memRead_eq_of_mem_eq rfl⟩⟩

theorem step_of_timerAdvance {s : State} (hf : s.fault = none) (hc : nextCall s = .timerAdvance) :
    step s = .next (timerAdvance (dropCall s)) :=
  (step_of_no_fault hf).trans (runCall_of_timerAdvance hc)

/-- Settles O54: the step is one advance of the state with the call taken, and each timer counts down to 0 and stays. -/
theorem timerAdvanceCountsDown : Obligations.TimerAdvanceCountsDown :=
  fun s hf hc => ⟨timerAdvance (dropCall s), step_of_timerAdvance hf hc, toNat_timer_decrement s.dt,
    toNat_timer_decrement s.st, rfl, rfl⟩

/-- `n` advances lower the sound timer by `n`, down to 0 (R183). -/
theorem toNat_st_iterate_timerAdvance (n : Nat) (s : State) :
    (timerAdvance^[n] s).st.toNat = s.st.toNat - n := by
  induction n generalizing s with
  | zero => rfl
  | succ n ih =>
    rw [Function.iterate_succ_apply, ih, timerAdvance_st, toNat_timer_decrement, Nat.sub_sub, Nat.add_comm 1 n]

/-- `n` advances beep once if the sound timer is above 0 and runs out within them, and not at all otherwise (R184). -/
theorem trace_iterate_timerAdvance (n : Nat) (s : State) :
    (timerAdvance^[n] s).trace = s.trace ++ (if 0 < s.st.toNat ∧ s.st.toNat ≤ n then [.beep] else []) := by
  induction n generalizing s with
  | zero =>
    have hnone : ¬(0 < s.st.toNat ∧ s.st.toNat ≤ 0) := by omega
    rw [if_neg hnone, List.append_nil, Function.iterate_zero_apply]
  | succ n ih =>
    rw [Function.iterate_succ_apply, ih, timerAdvance_st, toNat_timer_decrement, trace_timerAdvance_append]

/-- Running a word emits nothing, whether it completes, faults or does not decode (R36). -/
theorem trace_of_runWord {w : Word} {s t : State} (h : runWord w s = .next t) : t.trace = s.trace := by
  cases hd : decode w with
  | ok i =>
    rw [runWord_of_ok hd] at h
    exact (congrArg State.trace (exec_eq_withPartsOf h)).trans (withPartsOf_trace i s t)
  | error e =>
    cases (runWord_of_error hd s).symm.trans h
    rfl

/-- Settles O55: the two inductions on the number of advances start from ST = Vx and the trace as LD ST leaves it, and a
tick only runs a word. -/
theorem beepOncePerActivation : Obligations.BeepOncePerActivation := by
  refine ⟨fun x s n => ?advances, fun s t k b hc h => ?tick⟩
  case advances =>
    exact ⟨{ s with st := s.reg x }, rfl, toNat_st_iterate_timerAdvance n _, trace_iterate_timerAdvance n _⟩
  case tick =>
    have htrace : (duringTick k b s).trace = s.trace := rfl
    rw [step_of_tick (fault_eq_none_of_step h) hc] at h
    exact (trace_of_runWord h).trans htrace

end Sys2Proof.Machine
end

section
/-! The keypad instructions (R185 to R188): the two skips, their fault, and the poll of the marked key. -/

namespace Sys2Proof.Machine

/-! ### The key skips -/

/-- A key's down flag as the entry of the keypad's vector (R32). -/
theorem keyDown_eq_getElem (s : State) (k : Key) : s.keyDown k = s.host.keypad.down[k.val] := rfl

theorem skipIf_eq (s : State) (c : Bool) :
    s.skipIf c = { s with pc := if c = true then s.pc + 2 else s.pc } := rfl

theorem skipIf_not (s : State) (c : Bool) :
    s.skipIf (!c) = { s with pc := if c = true then s.pc else s.pc + 2 } := by
  cases c <;> rfl

/-- Settles O56: the value names a key, and the two skips test its down flag and the negation of it. -/
theorem keySkips : Obligations.KeySkips := by
  intro x s h
  refine ⟨(execSkp_ok x s h).trans ?_, (execSknp_ok x s h).trans ?_⟩
  · rw [keyDown_eq_getElem, skipIf_eq]
  · rw [keyDown_eq_getElem, skipIf_not]

/-- Settles O57: a value above 15 names no key, so both skips raise the fault. -/
theorem keyIndexAbove15Faults : Obligations.KeyIndexAbove15Faults :=
  fun x s h => ⟨execSkp_fault x s h, execSknp_fault x s h⟩

/-! ### The key wait -/

theorem exec_ldVxK (x : Reg) (s : State) : exec (.ldVxK x) s = .next (pollKey x s) := rfl

/-- A poll with a key marked is a register write (R187). -/
theorem pollKey_of_some {s : State} {key : Key} (x : Reg) (h : s.host.keypad.last = some key) :
    pollKey x s = s.setReg x (BitVec.ofNat 8 key.val) := by
  simp only [pollKey, h]
  rfl

/-- A poll with no key marked takes back the fetch's advance of pc (R187). -/
theorem pollKey_of_none {s : State} (x : Reg) (h : s.host.keypad.last = none) :
    pollKey x s = { s with pc := s.pc - 2 } := by
  simp only [pollKey, h]

theorem toNat_ofNat_key (key : Key) : (BitVec.ofNat 8 key.val).toNat = key.val :=
  (BitVec.toNat_ofNat ..).trans (Nat.mod_eq_of_lt (key.isLt.trans (by decide)))

/-- A poll with no key marked, run inside a tick, leaves the machine where the tick found it but for the host's inputs. -/
theorem pollKey_duringTick_of_none {k : Keypad} (x : Reg) (b : Byte) (s : State) (h : k.last = none) :
    pollKey x (duringTick k b s) = { s with host := (duringTick k b s).host } := by
  have hpc : (duringTick k b s).pc - 2 = s.pc := add_two_sub_two s.pc
  rw [pollKey_of_none x h, hpc]
  rfl

/-- Settles O58: the instruction is one poll, and inside a tick a poll with no key undoes the advance of pc. -/
theorem keyWaitPolls : Obligations.KeyWaitPolls := by
  refine fun x s => ⟨fun key hkey => ?marked, fun hnone => ?unmarked, fun k b hf hc hd hnone => ?tick⟩
  case marked =>
    rw [exec_ldVxK, pollKey_of_some x hkey]
    refine ⟨_, rfl, ?_, onlyRegsChange_setReg s x _⟩
    rw [reg_setReg_same, toNat_ofNat_key]
  case unmarked => rw [exec_ldVxK, pollKey_of_none x hnone]
  case tick =>
    rw [step_of_tick_of_decode_ok hf hc hd, exec_ldVxK, pollKey_duringTick_of_none x b s hnone]
    exact ⟨_, rfl, rfl⟩

end Sys2Proof.Machine
end

section
/-! Faults (R200 to R203): a recorded fault is all that leaves a core without a step, and the numbers of the causes. -/

namespace Sys2Proof.Machine

/-- A tick's word always answers a next state: what an instruction does or the fault it raises (R105, R203). -/
theorem runWord_next (w : Word) (s : State) : ∃ t, runWord w s = .next t := by
  rcases runWord_cases w s with ⟨-, t, hrun, -⟩ | ⟨c, -, hrun⟩
  · exact ⟨t, hrun⟩
  · exact ⟨_, hrun⟩

/-- Settles O11: the host's next call is a timer advance, or a tick that runs its word, and each answers a next state. -/
theorem faultedCoreAloneHasNoStep : Obligations.FaultedCoreAloneHasNoStep := by
  refine fun s => ⟨fun hf => ?_, fun r => step_of_fault⟩
  cases hc : nextCall s with
  | timerAdvance => exact ⟨_, step_of_timerAdvance hf hc⟩
  | tick k b =>
    rw [step_of_tick hf hc]
    exact runWord_next s.fetchWord (duringTick k b s)

/-- Settles O14: the codes as `FaultCause.code` gives them (D21). -/
theorem faultCauseCodes : Obligations.FaultCauseCodes := ⟨rfl, rfl, rfl, rfl⟩

end Sys2Proof.Machine
end

section
/-! A clean launch (R231 to R233): where the loader's bytes stand, and that boot refuses a ROM exactly when it is too
long. -/

namespace Sys2Proof.Machine

/-! ### A transfer that does not wrap (R52) -/

theorem memAddr_of_lt {base : Word} {k : Nat} (h : base.toNat + k < Config.memSize) : memAddr base k = base.toNat + k :=
  Nat.mod_eq_of_lt h

section
variable (s : State) {base : Word} {us : List Byte} (hfit : base.toNat + us.length ≤ Config.memSize)
include hfit

theorem memRead_storeBytes_placed {j : Nat} (hj : j < us.length) :
    (s.storeBytes base 0 us).memRead (base.toNat + j) = us[j] := by
  rw [← memAddr_of_lt (show base.toNat + j < Config.memSize by omega)]
  exact memRead_storeBytes_zero s base us (by omega) j hj

theorem memRead_storeBytes_outside {a : Nat} (ha : a < Config.memSize)
    (hout : a < base.toNat ∨ base.toNat + us.length ≤ a) : (s.storeBytes base 0 us).memRead a = s.memRead a := by
  refine keepsMemoryOutside_storeBytes s base us a fun k hk => ?_
  rw [Nat.mod_eq_of_lt ha, memAddr_of_lt (by omega)]
  omega

end

/-! ### Boot (R231, R232, R233) -/

/-- From the end of the font on, memory that nothing was stored into reads as zero (R231, log 15). -/
theorem unlistedByte_above_font {a : Nat} (ha : Config.fontBytes ≤ a) : unlistedByte a = 0 :=
  List.getD_eq_default _ _ ha

theorem boot_of_fits (font : List Byte) {rom : List Byte} (h : rom.length ≤ maxRomBytes) :
    ∃ s, boot font rom = some s := ⟨_, if_pos h⟩

theorem boot_of_too_long (font : List Byte) {rom : List Byte} (h : maxRomBytes < rom.length) : boot font rom = none :=
  if_neg (Nat.not_le_of_gt h)

/-- The font ends below 0x200 and the ROM ends in memory, so neither transfer wraps and each leaves the other's bytes. -/
theorem cleanLaunch_of_boot {font rom : List Byte} {s : State} (hfont : font.length = Config.fontBytes)
    (hrom : rom.length ≤ maxRomBytes) (hboot : boot font rom = some s) : CleanLaunch font rom s := by
  have hfontFits : (0 : Word).toNat + font.length ≤ Config.memSize := by rw [hfont]; decide
  have hromFits : (BitVec.ofNat 16 Config.romBase).toNat + rom.length ≤ Config.memSize :=
    Nat.add_le_of_le_sub' (by decide) hrom
  have hbelowRom (t : State) {a : Nat} (ha : a < Config.romBase) :
      (t.storeBytes (BitVec.ofNat 16 Config.romBase) 0 rom).memRead a = t.memRead a :=
    memRead_storeBytes_outside t hromFits (Nat.lt_trans ha (by decide)) (.inl ha)
  rw [boot_eq_some hboot]
  refine ⟨hfont, hrom, ?reset, fun k hk => ?font, fun k hk hlt => ?zero, fun j hj => ?rom⟩
  case reset => rw [storeBytes_eq, storeBytes_eq]; rfl
  case font =>
    rw [hbelowRom _ (Nat.lt_trans (hfont ▸ hk) (by decide))]
    simpa using memRead_storeBytes_placed (State.launch []) hfontFits hk
  case zero =>
    have hmem : k < Config.memSize := Nat.lt_trans hlt (by decide)
    rw [hbelowRom _ hlt, memRead_storeBytes_outside _ hfontFits hmem (.inr (by simpa [hfont] using hk))]
    exact unlistedByte_above_font (hk.trans_eq (Nat.mod_eq_of_lt hmem).symm)
  case rom => exact memRead_storeBytes_placed _ hromFits hj

/-- Settles O17: 0xE00 is the space above 0x200, which boot checks the ROM's length against, as a clean launch does. -/
theorem bootGivesCleanLaunch : Obligations.BootGivesCleanLaunch := by
  refine fun font rom hfont => ⟨fun hfits => ?fits, fun hlong => ⟨boot_of_too_long font hlong, fun s hclean => ?long⟩⟩
  case fits =>
    obtain ⟨s, hboot⟩ := boot_of_fits font hfits
    exact ⟨s, hboot, cleanLaunch_of_boot hfont hfits hboot⟩
  case long => exact Nat.not_le_of_gt hlong hclean.romFits

end Sys2Proof.Machine
end

section
/-! The end of a program (R239): the word at pc is a jump to itself, so a tick goes back to where it was. -/

namespace Sys2Proof.Machine

/-- `0x1000 | e`, the word of a program's end, is the encoding of `JP e`. -/
theorem encode_jp (e : BitVec 12) : encode (.jp e) = 0x1000#16 ||| zextAddr e := rfl

theorem decode_of_endedAt {e : BitVec 12} {s : State} (h : EndedAt e s) : decode s.fetchWord = .ok (.jp e) := by
  rw [h.selfJump, ← encode_jp]
  exact decode_encode rfl

/-- The end of a program depends on the fault record, pc and memory alone, not on the host's inputs. -/
theorem endedAt_of_eq_but_host {e : BitVec 12} {s t : State} (h : EndedAt e s) (ht : t = { s with host := t.host }) :
    EndedAt e t := by
  rw [ht]
  exact ⟨h.noFault, h.atEnd, h.selfJump⟩

/-- Settles O33: the jump writes pc alone, and what it writes is the address pc held before the tick. -/
theorem endedProgramStaysEnded : Obligations.EndedProgramStaysEnded := by
  intro e s k b hend hcall
  have hstep : step s = .next ((duringTick k b s).jump (zextAddr e)) :=
    step_of_tick_of_decode_ok hend.noFault hcall (decode_of_endedAt hend)
  have hframe : (duringTick k b s).jump (zextAddr e) = { s with host := (duringTick k b s).host } := by
    rw [← hend.atEnd]; rfl
  exact ⟨_, hstep, hframe, endedAt_of_eq_but_host hend hframe⟩

end Sys2Proof.Machine
end
